-- ==== Sys2Proof/Word.lean ====
section
/-! DEFINITION. The words of the host interface, the sign-magnitude value of one cell (00_scope.md R7, 10_state.md
R21) and the operand that names a cell (30_encoding.md R84). -/

namespace Sys2Proof

/-- A command word or a CSR word (R30, R80); bit 0 is the least significant. -/
abbrev Word := BitVec 32

/-- One 8-bit field of a command word (R80). -/
abbrev Byte := BitVec 8

/-- The 16-bit immediate field of a command word, an unsigned number (R85). -/
abbrev Imm16 := BitVec 16

/-- The sign of a cell (R21). -/
inductive Sign where
  | pos
  | neg
deriving DecidableEq, Repr

/-- A FixedWidthInt value, the pair of R7: both `(pos, 0)` and `(neg, 0)` exist and denote zero (R23). That the
magnitude is below `2 ^ W` is an invariant of the state, not part of the type, because `W` belongs to the build. -/
structure Value where
  sgn : Sign
  mag : Nat
deriving DecidableEq, Repr

/-- The constant `ZERO` (R7, R25). -/
def Value.zero : Value := ⟨.pos, 0⟩

/-- The constant `ONE` (R7, R25). -/
def Value.one : Value := ⟨.pos, 1⟩

/-- A cell of the operand store: general register `g<r>` or arena slot `s<k>` (R69, R84). The reserved specifiers
`0x10` to `0x7F` name nothing, so no operand stands for them. -/
inductive Operand where
  | g (r : Fin 16)
  | s (k : Fin 128)
deriving DecidableEq, Repr

end Sys2Proof
end

