-- ==== Sys2Proof/Config.lean ====
section
/-! DEFINITION. The parameters of a build (00_scope.md R5, R6) and the one free value of the model, the random draws
(10_state.md R41). -/

namespace Sys2Proof

/-- The open parameters of one build of the CORE (R5, 93 U14). They are fixed for the life of the CORE; the model
carries them in its state so that every statement is about every build (log entry 1). -/
structure Build where
  /-- `N`, the number of blocks of a value. -/
  N : Nat
  /-- `B`, the bits a block holds. -/
  B : Nat
  /-- `ARENA_CAP`, or `none` for the unbounded arena of R184. -/
  arenaCap : Option Nat
  /-- `MARK_CAP`, or `none` for the unbounded mark stack of R184. -/
  markCap : Option Nat
deriving DecidableEq, Repr

/-- `W = N × B`, the width of every magnitude. -/
def Build.W (b : Build) : Nat := b.N * b.B

/-- `H = W / 2 = (N / 2) × B`, the half width. -/
def Build.H (b : Build) : Nat := b.N / 2 * b.B

/-- The constraints R5 puts on the parameters. -/
abbrev Build.Wf (b : Build) : Prop :=
  b.N % 2 = 0 ∧ 2 ≤ b.N ∧ 1 ≤ b.B ∧ b.B ≤ 32 ∧ b.W ≤ 65536 ∧
    (∀ c ∈ b.arenaCap, 1 ≤ c ∧ c ≤ 128) ∧ (∀ c ∈ b.markCap, 1 ≤ c)

/-- Configuration `T32` of R5 with the unbounded arena of R184. -/
def Build.t32 : Build := ⟨4, 8, none, none⟩

/-- Configuration `T256` of R5 with the unbounded arena of R184. -/
def Build.t256 : Build := ⟨8, 32, none, none⟩

/-- DESIGN CHOICE (log entry 1): the build whose reset state `State.reset` is. -/
def Build.standard : Build := .t32

/-- The free values behind `draw(lo, hi)` (R41, 93 U13): the raw number the random-bit source delivers at its `n`-th
use. It has no body, so nothing can be proved of its values. -/
opaque Config.freeDraw : Nat → Nat

end Sys2Proof
end

