-- ==== Sys2Proof/Syntax.lean ====
section
/-! DEFINITION. The 28 commands of 30_encoding.md R88, one constructor per row of the opcode table. -/

namespace Sys2Proof

/-- A command. Operands stand in the field order `a`, `b`, `c` or `imm16` (R98); the receiver comes first. -/
inductive Instr where
  /-- R160 -/ | ldz (a : Operand)
  /-- R161 -/ | ldo (a : Operand)
  /-- R162 -/ | mov (a b : Operand)
  /-- R163: `j` is a block index, 0 the most significant -/ | wrb (a : Operand) (j : Imm16)
  /-- R164 -/ | rdb (a : Operand) (j : Imm16)
  /-- R165: the immediate 0 or 1 is the sign -/ | setsgn (a : Operand) (sb : Sign)
  /-- R166 -/ | getsgn (a : Operand)
  /-- R110 -/ | add (a b : Operand)
  /-- R111 -/ | sub (a b : Operand)
  /-- R112 -/ | abssub (a b : Operand)
  /-- R120 -/ | mul (a b : Operand)
  /-- R122 -/ | mod (a b : Operand)
  /-- R123 -/ | div (a b : Operand)
  /-- R130: base and receiver, exponent, modulus -/ | powmod (a b c : Operand)
  /-- R140 -/ | shl (a : Operand) (n : Imm16)
  /-- R141 -/ | shr (a : Operand) (n : Imm16)
  /-- R143 -/ | absgt (a b : Operand)
  /-- R144 -/ | absge (a b : Operand)
  /-- R145: `p` is a bit position, 0 the most significant -/ | getbit (a : Operand) (p : Imm16)
  /-- R146 -/ | setbit (a : Operand) (p : Imm16)
  /-- R148 -/ | randomize (a : Operand) (nb : Imm16)
  /-- R180 -/ | aopen
  /-- R181 -/ | aget
  /-- R182 -/ | aclose
  /-- R190 -/ | xeuc (a b : Operand)
  /-- R192 -/ | invmod (a b : Operand)
  /-- R200: `acc` is the number of rounds -/ | isprime (a : Operand) (acc : Imm16)
  /-- R210 -/ | clrst
deriving DecidableEq, Repr

end Sys2Proof
end

