-- ==== Sys2Proof/WellFormed.lean ====
section
/-! DEFINITION. Which commands a build accepts: the tests (3) slot index, (4) and (5) of 30_encoding.md R95, as a
predicate of the command. All of them depend on the command and the build alone. -/

namespace Sys2Proof

/-- The slot-index half of test (3) of R95: a slot with index `≥ ARENA_CAP` is illegal (R84). -/
def Operand.wf (b : Build) : Operand → Bool
  | .g _ => true
  | .s k => match b.arenaCap with
    | none => true
    | some c => decide (k.val < c)

/-- Legality of a command in build `b`: its slots exist, its immediate is in the range of R85, and the two cells of
`XEUC` differ. -/
def Instr.wf (b : Build) : Instr → Bool
  | .ldz a | .ldo a | .setsgn a _ | .getsgn a => a.wf b
  | .mov x y | .add x y | .sub x y | .abssub x y | .mul x y | .mod x y | .div x y | .absgt x y | .absge x y
  | .invmod x y => x.wf b && y.wf b
  | .powmod x y z => x.wf b && y.wf b && z.wf b
  | .wrb a j | .rdb a j => a.wf b && decide (j.toNat < b.N)
  | .shl a _ | .shr a _ | .isprime a _ => a.wf b
  | .getbit a p | .setbit a p => a.wf b && decide (p.toNat < b.W)
  | .randomize a nb => a.wf b && decide (nb.toNat ≤ b.N)
  | .xeuc x y => x.wf b && y.wf b && decide (x ≠ y)
  | .aopen | .aget | .aclose | .clrst => true

/-- The command is legal in build `b`. -/
abbrev WellFormed (b : Build) (i : Instr) : Prop := i.wf b = true

end Sys2Proof
end

