-- ==== Sys2Proof/Decode.lean ====
section
/-! DEFINITION. Decoding of a command word (30_encoding.md R80 to R97): a total function from a 32-bit word to a
command or to the first of the five reasons of R95, then the encoder, written from the same tables. -/

namespace Sys2Proof

/-- Why a word is illegal, one constructor per test of R95. The machine records none of them (R223); the reason is
for statements and tests. -/
inductive IllegalWord where
  /-- test (1): `op` is not in the table of R88 -/ | reservedOpcode
  /-- test (2): a field the format does not use is non-zero -/ | unusedField
  /-- test (3): a reserved specifier, or a slot index `≥ ARENA_CAP` -/ | badSpecifier
  /-- test (4): `imm16` is outside the range of R85 -/ | badImmediate
  /-- test (5): `XEUC` with `a = b` -/ | sameDestination
deriving DecidableEq, Repr

/-- `op`, bits `[31:24]` (R80). -/
def opField (w : Word) : Byte := w.extractLsb' 24 8

/-- `a`, bits `[23:16]` (R80). -/
def aField (w : Word) : Byte := w.extractLsb' 16 8

/-- `b`, bits `[15:8]` (R80). -/
def bField (w : Word) : Byte := w.extractLsb' 8 8

/-- `c`, bits `[7:0]` (R80). -/
def cField (w : Word) : Byte := w.extractLsb' 0 8

/-- `imm16`, bits `[15:0]`, overlapping `b` and `c` (R80, R85). -/
def immField (w : Word) : Imm16 := w.extractLsb' 0 16

/-- The operand specifier of R84: `0x00` to `0x0F` a general register, `0x10` to `0x7F` reserved, `0x80` upward a slot,
which build `b` must have. -/
def decodeOperand (b : Build) (x : Byte) : Option Operand :=
  if h : x.toNat < 0x10 then some (.g ⟨x.toNat, h⟩)
  else if x.toNat < 0x80 then none
  else
    let o : Operand := .s ⟨x.toNat - 0x80, by omega⟩
    if o.wf b then some o else none

/-- What a decoder answers. -/
abbrev Decoded := Except IllegalWord Instr

/-- Test (3) of R95 on one specifier. -/
def withOperand (b : Build) (x : Byte) (k : Operand → Decoded) : Decoded :=
  match decodeOperand b x with
  | some a => k a
  | none => .error .badSpecifier

/-- Format `Z` of R81: no field but `op`. -/
def decodeZ (w : Word) (i : Instr) : Decoded :=
  if aField w = 0 ∧ immField w = 0 then .ok i else .error .unusedField

/-- Format `R1` of R81: `op` and `a`. -/
def decodeR1 (b : Build) (w : Word) (k : Operand → Instr) : Decoded :=
  if immField w = 0 then withOperand b (aField w) fun x => .ok (k x) else .error .unusedField

/-- Format `R2` of R81: `op`, `a` and `b`. -/
def decodeR2 (b : Build) (w : Word) (k : Operand → Operand → Decoded) : Decoded :=
  if cField w = 0 then withOperand b (aField w) fun x => withOperand b (bField w) fun y => k x y
  else .error .unusedField

/-- Format `R3` of R81: `op`, `a`, `b` and `c`. -/
def decodeR3 (b : Build) (w : Word) (k : Operand → Operand → Operand → Instr) : Decoded :=
  withOperand b (aField w) fun x => withOperand b (bField w) fun y =>
    withOperand b (cField w) fun z => .ok (k x y z)

/-- Format `RI` of R81: `op`, `a` and `imm16`; `inRange` is test (4) of R95 for the command (R85). -/
def decodeRI (b : Build) (w : Word) (inRange : Nat → Bool) (k : Operand → Imm16 → Instr) : Decoded :=
  withOperand b (aField w) fun x =>
    if inRange (immField w).toNat then .ok (k x (immField w)) else .error .badImmediate

/-- Test (5) of R95: `XEUC` has two destinations (R191). -/
def decodeXeuc (x y : Operand) : Decoded :=
  if x = y then .error .sameDestination else .ok (.xeuc x y)

/-- The sign an immediate of `SETSGN` names (R85, R165): 0 for `+1`, 1 for `−1`. -/
def signOfImm (n : Imm16) : Sign := if n = 0 then .pos else .neg

/-- The decoder of a build: the opcode map of R88 over the formats of R81. -/
def decode (b : Build) (w : Word) : Decoded :=
  match (opField w).toNat with
  | 0x10 => decodeR1 b w .ldz
  | 0x11 => decodeR1 b w .ldo
  | 0x12 => decodeR2 b w fun x y => .ok (.mov x y)
  | 0x13 => decodeRI b w (fun j => decide (j < b.N)) .wrb
  | 0x14 => decodeRI b w (fun j => decide (j < b.N)) .rdb
  | 0x15 => decodeRI b w (fun n => decide (n < 2)) fun x n => .setsgn x (signOfImm n)
  | 0x16 => decodeR1 b w .getsgn
  | 0x20 => decodeR2 b w fun x y => .ok (.add x y)
  | 0x21 => decodeR2 b w fun x y => .ok (.sub x y)
  | 0x22 => decodeR2 b w fun x y => .ok (.abssub x y)
  | 0x30 => decodeR2 b w fun x y => .ok (.mul x y)
  | 0x31 => decodeR2 b w fun x y => .ok (.mod x y)
  | 0x32 => decodeR2 b w fun x y => .ok (.div x y)
  | 0x33 => decodeR3 b w .powmod
  | 0x40 => decodeRI b w (fun _ => true) .shl
  | 0x41 => decodeRI b w (fun _ => true) .shr
  | 0x42 => decodeR2 b w fun x y => .ok (.absgt x y)
  | 0x43 => decodeR2 b w fun x y => .ok (.absge x y)
  | 0x44 => decodeRI b w (fun p => decide (p < b.W)) .getbit
  | 0x45 => decodeRI b w (fun p => decide (p < b.W)) .setbit
  | 0x46 => decodeRI b w (fun nb => decide (nb ≤ b.N)) .randomize
  | 0x50 => decodeZ w .aopen
  | 0x51 => decodeZ w .aget
  | 0x52 => decodeZ w .aclose
  | 0x60 => decodeR2 b w decodeXeuc
  | 0x61 => decodeR2 b w fun x y => .ok (.invmod x y)
  | 0x62 => decodeRI b w (fun _ => true) .isprime
  | 0x70 => decodeZ w .clrst
  | _ => .error .reservedOpcode

/-- The command the opcode table's bits `w` stand for in the standard build; a row has `nbits` bits and every bit above
them is 0. -/
def decodeTableWord (nbits w : Nat) : Option Instr :=
  match decode .standard (BitVec.ofNat 32 (w % 2 ^ nbits)) with
  | .ok i => some i
  | .error _ => none

/-! The encoder: R84 for the specifier, R80 and R81 for the word. -/

/-- The specifier byte of an operand (R84). -/
def Operand.spec : Operand → Byte
  | .g r => BitVec.ofNat 8 r.val
  | .s k => BitVec.ofNat 8 (0x80 + k.val)

/-- The `imm16` of `SETSGN` for a sign (R85). -/
def Sign.imm : Sign → Imm16
  | .pos => 0
  | .neg => 1

/-- The word `op << 24 | a << 16 | b << 8 | c` of R98. -/
def wordABC (op a b c : Byte) : Word := op ++ a ++ b ++ c

/-- The word `op << 24 | a << 16 | imm16` of R98. -/
def wordAI (op a : Byte) (n : Imm16) : Word := op ++ a ++ n

/-- The command word of a command (R98). -/
def encode : Instr → Word
  | .ldz a => wordAI 0x10 a.spec 0
  | .ldo a => wordAI 0x11 a.spec 0
  | .mov a b => wordABC 0x12 a.spec b.spec 0
  | .wrb a j => wordAI 0x13 a.spec j
  | .rdb a j => wordAI 0x14 a.spec j
  | .setsgn a sb => wordAI 0x15 a.spec sb.imm
  | .getsgn a => wordAI 0x16 a.spec 0
  | .add a b => wordABC 0x20 a.spec b.spec 0
  | .sub a b => wordABC 0x21 a.spec b.spec 0
  | .abssub a b => wordABC 0x22 a.spec b.spec 0
  | .mul a b => wordABC 0x30 a.spec b.spec 0
  | .mod a b => wordABC 0x31 a.spec b.spec 0
  | .div a b => wordABC 0x32 a.spec b.spec 0
  | .powmod a b c => wordABC 0x33 a.spec b.spec c.spec
  | .shl a n => wordAI 0x40 a.spec n
  | .shr a n => wordAI 0x41 a.spec n
  | .absgt a b => wordABC 0x42 a.spec b.spec 0
  | .absge a b => wordABC 0x43 a.spec b.spec 0
  | .getbit a p => wordAI 0x44 a.spec p
  | .setbit a p => wordAI 0x45 a.spec p
  | .randomize a nb => wordAI 0x46 a.spec nb
  | .aopen => wordAI 0x50 0 0
  | .aget => wordAI 0x51 0 0
  | .aclose => wordAI 0x52 0 0
  | .xeuc a b => wordABC 0x60 a.spec b.spec 0
  | .invmod a b => wordABC 0x61 a.spec b.spec 0
  | .isprime a acc => wordAI 0x62 a.spec acc
  | .clrst => wordAI 0x70 0 0

/-! The opcode map of R88 as data, and the five tests of R95 written from R81, R84, R85 over it, apart from `decode`:
the two are to agree. -/

/-- The formats of R81. -/
inductive Format where
  | z | r1 | r2 | r3 | ri
deriving DecidableEq, Repr

/-- The fixed bits of a format (R81). -/
def Format.mask : Format → Word
  | .z => 0xFFFFFFFF
  | .r1 => 0xFF00FFFF
  | .r2 => 0xFF0000FF
  | .r3 => 0xFF000000
  | .ri => 0xFF000000

/-- One row of R88. -/
structure Row where
  op : Nat
  mnemonic : String
  format : Format
deriving DecidableEq, Repr

/-- The complete opcode map (R88). -/
def opcodeTable : List Row :=
  [⟨0x10, "LDZ", .r1⟩, ⟨0x11, "LDO", .r1⟩, ⟨0x12, "MOV", .r2⟩, ⟨0x13, "WRB", .ri⟩, ⟨0x14, "RDB", .ri⟩,
    ⟨0x15, "SETSGN", .ri⟩, ⟨0x16, "GETSGN", .r1⟩] ++
  [⟨0x20, "ADD", .r2⟩, ⟨0x21, "SUB", .r2⟩, ⟨0x22, "ABSSUB", .r2⟩, ⟨0x30, "MUL", .r2⟩, ⟨0x31, "MOD", .r2⟩,
    ⟨0x32, "DIV", .r2⟩, ⟨0x33, "POWMOD", .r3⟩] ++
  [⟨0x40, "SHL", .ri⟩, ⟨0x41, "SHR", .ri⟩, ⟨0x42, "ABSGT", .r2⟩, ⟨0x43, "ABSGE", .r2⟩, ⟨0x44, "GETBIT", .ri⟩,
    ⟨0x45, "SETBIT", .ri⟩, ⟨0x46, "RANDOMIZE", .ri⟩] ++
  [⟨0x50, "AOPEN", .z⟩, ⟨0x51, "AGET", .z⟩, ⟨0x52, "ACLOSE", .z⟩, ⟨0x60, "XEUC", .r2⟩, ⟨0x61, "INVMOD", .r2⟩,
    ⟨0x62, "ISPRIME", .ri⟩, ⟨0x70, "CLRST", .z⟩]

/-- The row whose `op` a word carries. -/
def rowOf (w : Word) : Option Row := opcodeTable.find? fun r => r.op == (opField w).toNat

/-- `match = op << 24` (R81). -/
def Row.matchWord (r : Row) : Word := BitVec.ofNat 32 r.op <<< 24

/-- The operand specifiers a word of the format uses (R81). -/
def Format.specifiers (f : Format) (w : Word) : List Byte :=
  match f with
  | .z => []
  | .r1 | .ri => [aField w]
  | .r2 => [aField w, bField w]
  | .r3 => [aField w, bField w, cField w]

/-- The specifiers R84 gives a meaning in build `b`: a general register, or a slot the build has. -/
def specifierNames (b : Build) (x : Byte) : Bool :=
  decide (x.toNat ≤ 0x0F) ||
    (decide (0x80 ≤ x.toNat) && match b.arenaCap with
      | none => true
      | some c => decide (x.toNat - 0x80 < c))

/-- The legal range of `imm16` by opcode (R85); opcodes without an immediate have none to test. -/
def immediateLegal (b : Build) (op n : Nat) : Bool :=
  match op with
  | 0x13 | 0x14 => decide (n < b.N)
  | 0x15 => decide (n = 0 ∨ n = 1)
  | 0x44 | 0x45 => decide (n < b.W)
  | 0x46 => decide (n ≤ b.N)
  | _ => true

/-- The first of the five tests of R95 that holds of a word, or `none` for a legal word. -/
def illegalReason (b : Build) (w : Word) : Option IllegalWord :=
  match rowOf w with
  | none => some .reservedOpcode
  | some r =>
    if w &&& r.format.mask ≠ r.matchWord then some .unusedField
    else if !(r.format.specifiers w).all (specifierNames b) then some .badSpecifier
    else if !immediateLegal b r.op (immField w).toNat then some .badImmediate
    else if r.op = 0x60 ∧ aField w = bField w then some .sameDestination
    else none

end Sys2Proof
end

