-- ==== Sys2Proof/Machine/State.lean ====
section
/-! DEFINITION. The state of one CORE (10_state.md R20 to R44), its reset value (R43, 70 R250), and the reasons a
command can stop. -/

namespace Sys2Proof.Machine

/-- The four flags of `STATUS` (R33). -/
structure Status where
  /-- bit 0: the predicate flag -/ t : Bool
  /-- bit 1, sticky: unmatched `ACLOSE` -/ aerr : Bool
  /-- bit 2, sticky: illegal command word -/ ill : Bool
  /-- bit 3, sticky: arena or mark stack exhausted -/ afull : Bool
deriving DecidableEq, Repr

/-- What has been written of one general register since reset (R44): its sign, and each of its `N` blocks in block
order. -/
structure Written where
  sign : Bool
  blocks : List Bool
deriving DecidableEq, Repr

/-- The random-bit source as an input (R41): the values it has already delivered and not yet been asked for, and how
many draws have been taken. Past the delivered values a draw is the free value `Config.freeDraw` of the count
(log entry 7). -/
structure Rng where
  queue : List Nat
  count : Nat
deriving DecidableEq, Repr

/-- The model's own record of what it counts against a run (R210: a model "keeps its own record and does not let
`CLRST` erase it"). -/
structure Record where
  /-- `AFULL` has been set since reset (R184, R229) -/ afull : Bool
  /-- a command has read a general register, or the part of it it reads, that nothing had written since reset
  (R44, U11; log entry 2) -/ unwritten : Bool
deriving DecidableEq, Repr

/-- The three actions of the host interface (R30). CSR numbers above 7 do not exist (R38). -/
inductive HostAction where
  | csrRead (n : Fin 8)
  | csrWrite (n : Fin 8) (w : Word)
  | reset
deriving DecidableEq, Repr

/-- The state of one CORE, with the host's side of the interface. -/
structure State where
  /-- the build's parameters, which `CFG` shows; they never change (R5, R32; log entry 1) -/ build : Build
  /-- `g0` to `g15` (R24) -/ regs : Vector Value 16
  /-- which parts of `g0` to `g15` were written since reset (R44) -/ written : Vector Written 16
  /-- the arena slots by index, `s0` first (R26): the live ones, since the content of a dead slot is not observable
  and need not be kept (R28; log entry 9) -/ slots : List Value
  /-- `ATOP`, the high-water mark (R27) -/ atop : Nat
  /-- the saved high-water marks, the top of the stack first (R27); `ADEPTH` is its length -/ marks : List Nat
  /-- `STATUS` (R33) -/ status : Status
  /-- `RES` (R35) -/ res : Nat
  /-- `DIN`, below `2 ^ B` (R36) -/ din : Word
  /-- `DOUT`, below `2 ^ B` (R36) -/ dout : Word
  /-- the random-bit source (R41), an input -/ rng : Rng
  /-- the model's own record (R210, R229) -/ record : Record
  /-- the host actions not yet performed, oldest first (R30, R70; log entry 6) -/ actions : List HostAction
  /-- the words `csr_read` has returned, newest first (R30; log entry 6) -/ replies : List Word
deriving DecidableEq, Repr

/-- Why the machine stops: the precondition violations of R225, which R229 and 93 part 1 make faults of a model. The
hardware sets no flag, may leave any value in what the command can write, and may never finish. Every one is safe:
the model stops where the hardware goes on or hangs (log entry 4). -/
inductive Fault where
  /-- U6, raised by any command that names the dead slot `k` as source or destination (R28). Safe. -/
  | deadSlot (k : Nat)
  /-- U1, raised by `ABSSUB` when the receiver's magnitude is below the operand's (R112). Safe. -/
  | absSubUnderflow
  /-- U2, raised by `XEUC` and `INVMOD` on operands that are not coprime (R190, R192). Safe. -/
  | notCoprime
  /-- U3, raised by `MOD`, `DIV`, `POWMOD` and `INVMOD` on a divisor or modulus of magnitude 0 (R122, R123, R130,
  R192). Safe. -/
  | zeroModulus
  /-- U4, raised by `POWMOD` on a modulus above `2 ^ H` (R130). Safe. -/
  | modulusTooWide
  /-- U5, raised by `XEUC` and `INVMOD` on a negative operand or a magnitude `≥ 2 ^ H` (R190, R192). Safe. -/
  | euclidOperand
  /-- U7, raised by `ISPRIME` on a negative number, on 0 and above `2 ^ H` (R200). Safe. -/
  | primeOperand
deriving DecidableEq, Repr

/-- Why a command has no meaning. -/
inductive Refusal where
  /-- Raised by `exec` for a command the model does not give a meaning. Safe. No arm of `exec` does. -/
  | notModelled (mnemonic : String)
deriving DecidableEq, Repr

/-- What a step and a meaning answer. -/
abbrev Out := Host.Outcome State Fault Refusal

/-- A general register of which nothing has been written (R44). -/
def Written.none (b : Build) : Written := ⟨false, List.replicate b.N false⟩

/-- DESIGN CHOICE (log entry 2, unsafe): what a general register holds after reset. R43 leaves it unspecified and R44,
U11 say not to take zero, so the model takes the other constant of the source, `ONE`. -/
def resetCell : Value := .one

/-- The state right after `reset` for build `b` (R43, R250), nothing pending from the host and no random value
delivered. -/
def State.resetFor (b : Build) : State where
  build := b
  regs := Vector.replicate 16 resetCell
  written := Vector.replicate 16 (Written.none b)
  slots := []
  atop := 0
  marks := []
  status := ⟨false, false, false, false⟩
  res := 0
  din := 0
  dout := 0
  rng := ⟨[], 0⟩
  record := ⟨false, false⟩
  actions := []
  replies := []

/-- The machine right after reset (R43), in the standard build (log entry 1). -/
def State.reset : State := .resetFor .standard

end Sys2Proof.Machine
end

