-- ==== Sys2Proof/Machine/Flags.lean ====
section
/-! DEFINITION. The flags of `STATUS` (10_state.md R33). The CORE has no traps (60_exceptions.md R226): reporting a
condition, the one thing it has in place of taking an exception, is `raise`, one flag write (R221), and `CLRST` is all
there is in place of a return (R231). -/

namespace Sys2Proof.Machine

/-- The reported conditions of R221. -/
inductive Condition where
  | aerr
  | ill
  | afull
deriving DecidableEq, Repr

/-- The code of a condition, its bit position in `STATUS` (R221). -/
def Condition.code : Condition → Nat
  | .aerr => 1
  | .ill => 2
  | .afull => 3

/-- `flag <condition>` of R9: set the sticky bit, change nothing else of the machine (R221). A set `AFULL` is entered in
the model's record, which `CLRST` does not erase (R210, R229; log entry 5). -/
def raise (c : Condition) (s : State) : State :=
  match c with
  | .aerr => { s with status := { s.status with aerr := true } }
  | .ill => { s with status := { s.status with ill := true } }
  | .afull => { s with status := { s.status with afull := true }, record := { s.record with afull := true } }

/-- `T <- v` (R9, R33). -/
def setT (v : Bool) (s : State) : State := { s with status := { s.status with t := v } }

/-- The three sticky flags cleared, `T` as it was (R210). -/
def clearSticky (s : State) : State := { s with status := ⟨s.status.t, false, false, false⟩ }

/-- The 32-bit word of `STATUS` (R31, R33): bits `[31:4]` read 0. -/
def statusWord (f : Status) : Word :=
  BitVec.ofNat 32 (f.t.toNat + 2 * f.aerr.toNat + 4 * f.ill.toNat + 8 * f.afull.toNat)

end Sys2Proof.Machine
end

