-- ==== Sys2Proof/Machine/Operands.lean ====
section
/-! DEFINITION. Views of a value (00_scope.md R7, R8) and arithmetic of signs: blocks, bit positions, the integer a
value denotes. -/

namespace Sys2Proof.Machine

/-- The product of two signs (R120: "Sign of result = product of operand signs"). -/
def signMul (x y : Sign) : Sign := if x = y then .pos else .neg

/-- The opposite sign (R111). -/
def signFlip : Sign → Sign
  | .pos => .neg
  | .neg => .pos

/-- `val(v) = v.sgn × v.mag` (R7). -/
def intVal (v : Value) : Int :=
  match v.sgn with
  | .pos => (v.mag : Int)
  | .neg => -(v.mag : Int)

/-- The value of an integer, zero as `+0` (R190: "zero is written as +0"). -/
def valueOfInt (z : Int) : Value := ⟨if z < 0 then .neg else .pos, z.natAbs⟩

/-- The weight exponent of block `j`'s lowest bit: block 0 is the most significant (R8 a). -/
def blockShift (b : Build) (j : Nat) : Nat := b.B * (b.N - 1 - j)

/-- `blk(v, j)`, the `B`-bit number in block `j` (R8 a). -/
def blk (b : Build) (v : Value) (j : Nat) : Nat := v.mag / 2 ^ blockShift b j % 2 ^ b.B

/-- `v` with block `j` replaced by `d[B−1:0]`, the other blocks and the sign as they were (R64, R163 corner
case 1). -/
def setBlk (b : Build) (v : Value) (j d : Nat) : Value :=
  ⟨v.sgn, v.mag - blk b v j * 2 ^ blockShift b j + d % 2 ^ b.B * 2 ^ blockShift b j⟩

/-- `bitpos(v, p)`, the bit at accessor position `p`, 0 the most significant (R8 b). -/
def bitPos (b : Build) (v : Value) (p : Nat) : Bool := v.mag / 2 ^ (b.W - 1 - p) % 2 == 1

/-- `v` with the bit at position `p` set to 1 (R146). -/
def setBitPos (b : Build) (v : Value) (p : Nat) : Value := ⟨v.sgn, v.mag ||| 2 ^ (b.W - 1 - p)⟩

end Sys2Proof.Machine
end

