-- ==== Sys2Proof/Machine/Ops.lean ====
section
/-! DEFINITION. Access to the operand store (10_state.md R24 to R28, R44; 20_memory.md R60 to R68) and to the random-bit
source (10_state.md R41). Every command reads and writes cells through these operations. -/

namespace Sys2Proof.Machine

/-- A slot is live when its index is below `ATOP` (R28); a general register always is. -/
def live (s : State) : Operand → Bool
  | .g _ => true
  | .s k => decide (k.val < s.atop)

/-- Slot `k` of a slot list. -/
def slotAt (l : List Value) (k : Nat) : Value := l.getD k .zero

/-- The slot list with slot `k` replaced; slots before it that the list does not hold become `ZERO`. -/
def slotPut : List Value → Nat → Value → List Value
  | [], 0, v => [v]
  | [], k + 1, v => .zero :: slotPut [] k v
  | _ :: l, 0, v => v :: l
  | x :: l, k + 1, v => x :: slotPut l k v

/-- `x[i]` read (R9). -/
def cell (s : State) : Operand → Value
  | .g r => s.regs[r]
  | .s k => slotAt s.slots k.val

/-- `x[i] <- v`, the whole cell (R9). -/
def setCell (s : State) (o : Operand) (v : Value) : State :=
  match o with
  | .g r => { s with regs := s.regs.set r v }
  | .s k => { s with slots := slotPut s.slots k.val v }

/-- `BlkRead(i, j)` (R63). -/
def blkRead (s : State) (o : Operand) (j : Nat) : Nat := blk s.build (cell s o) j

/-- `BlkWrite(i, j, d)` (R64). -/
def blkWrite (s : State) (o : Operand) (j d : Nat) : State := setCell s o (setBlk s.build (cell s o) j d)

/-- A register of which every part has been written (R44). -/
def Written.whole (w : Written) : Bool := w.sign && w.blocks.all id

/-- What a command reads of a cell (R44): the whole value, one block (`RDB`), or the sign (`GETSGN`, `RANDOMIZE`). -/
inductive Part where
  | whole
  | block (j : Nat)
  | sign
deriving DecidableEq, Repr

/-- The part of the cell was written since reset (R44). A live slot always was, by the `AGET` that handed it out. -/
def wasWritten (s : State) (p : Part) : Operand → Bool
  | .s _ => true
  | .g r => match p with
    | .whole => (s.written[r]).whole
    | .block j => (s.written[r]).blocks.getD j false
    | .sign => (s.written[r]).sign

/-- The model's record of a read (R44, U11): the machine itself does not change. -/
def noteRead (s : State) (p : Part) (o : Operand) : State :=
  { s with record := { s.record with unwritten := s.record.unwritten || !wasWritten s p o } }

/-- The cell counts as written from now on (R44: `LDZ`, `LDO`, `MOV`). -/
def noteWhole (s : State) : Operand → State
  | .s _ => s
  | .g r => { s with written := s.written.set r ⟨true, List.replicate s.build.N true⟩ }

/-- Block `j` of the cell counts as written from now on (R44: `WRB`). -/
def noteBlock (s : State) (o : Operand) (j : Nat) : State :=
  match o with
  | .s _ => s
  | .g r => { s with written := s.written.set r ⟨(s.written[r]).sign, (s.written[r]).blocks.set j true⟩ }

/-- The sign of the cell counts as written from now on (R44: `SETSGN`). -/
def noteSign (s : State) : Operand → State
  | .s _ => s
  | .g r => { s with written := s.written.set r ⟨true, (s.written[r]).blocks⟩ }

/-- The fault of naming `o` when it is dead (U6). -/
def deadFault : Operand → Fault
  | .s k => .deadSlot k.val
  | .g r => .deadSlot r.val

/-- The operand named as a destination must be live (R28). -/
def withLive (s : State) (o : Operand) (k : Out) : Out := if live s o then k else .fault (deadFault o)

/-- Read a cell: it must be live (R28), the read is recorded (R44), and `k` goes on with the value. Reads come before
the arithmetic preconditions (R228) and before every write (R68). -/
def withCell (s : State) (p : Part) (o : Operand) (k : Value → State → Out) : Out :=
  withLive s o (k (cell s o) (noteRead s p o))

/-- The next raw number of the random-bit source (R41): the oldest delivered one, else a free value. -/
def Rng.raw (g : Rng) : Nat × Rng :=
  match g.queue with
  | x :: rest => (x, ⟨rest, g.count + 1⟩)
  | [] => (Config.freeDraw g.count, ⟨[], g.count + 1⟩)

/-- A raw number brought into `lo .. hi`: one already in the range stands for itself. -/
def intoRange (lo hi x : Nat) : Nat := if lo ≤ x ∧ x ≤ hi then x else lo + x % (hi - lo + 1)

/-- `draw(lo, hi)` (R41): a free input in `lo .. hi`, under no law. -/
def Rng.draw (lo hi : Nat) (g : Rng) : Nat × Rng := (intoRange lo hi g.raw.1, g.raw.2)

/-- `n` fresh random bits, `draw(0, 2 ^ n − 1)`; no bits take no draw (95 section 2.7; log entry 8). -/
def Rng.bits (n : Nat) (g : Rng) : Nat × Rng := if n = 0 then (0, g) else g.draw 0 (2 ^ n - 1)

end Sys2Proof.Machine
end

