-- ==== Sys2Proof/Machine/AddSub.lean ====
section
/-! DEFINITION. Addition and subtraction (40_addsub.md): ADD, SUB, ABSSUB. -/

namespace Sys2Proof.Machine

/-- `ADDV` of R110: the sum of equal signs truncated to `W` bits, else the difference of the magnitudes, non-negative
exactly when "this operand had larger or equal magnitude" == "this operand is non-negative". -/
def addV (b : Build) (x y : Value) : Value :=
  if x.sgn = y.sgn then ⟨x.sgn, (x.mag + y.mag) % 2 ^ b.W⟩
  else
    let ge := decide (y.mag ≤ x.mag)
    ⟨if ge = decide (x.sgn = .pos) then .pos else .neg, if ge then x.mag - y.mag else y.mag - x.mag⟩

/-- The value function of R111: `ADDV` with the second operand's sign flipped. -/
def subV (b : Build) (x y : Value) : Value := addV b x ⟨signFlip y.sgn, y.mag⟩

/-- `ADD a, b` (R110). -/
def execAdd (a b : Operand) (s : State) : Out :=
  withCell s .whole a fun x s => withCell s .whole b fun y s => .next (setCell s a (addV s.build x y))

/-- `SUB a, b` (R111). -/
def execSub (a b : Operand) (s : State) : Out :=
  withCell s .whole a fun x s => withCell s .whole b fun y s => .next (setCell s a (subV s.build x y))

/-- `ABSSUB a, b` (R112): the receiver keeps its sign; PV U1 when its magnitude is the smaller. -/
def execAbssub (a b : Operand) (s : State) : Out :=
  withCell s .whole a fun x s => withCell s .whole b fun y s =>
    if x.mag < y.mag then .fault .absSubUnderflow
    else .next (setCell s a ⟨x.sgn, x.mag - y.mag⟩)

end Sys2Proof.Machine
end

