-- ==== Sys2Proof/Machine/Arena.lean ====
section
/-! DEFINITION. The scratch arena (44_arena.md): AOPEN, AGET, ACLOSE. -/

namespace Sys2Proof.Machine

/-- `AOPEN` (R180): push `ATOP`; a full mark stack sets `AFULL` and changes nothing else (R184). -/
def execAopen (s : State) : Out :=
  .next (if s.build.markCap = some s.marks.length then raise .afull s else { s with marks := s.atop :: s.marks })

/-- `AGET` (R181): hand out the next slot, born as `ZERO`; a full arena sets `AFULL` and changes nothing else
(R184). -/
def execAget (s : State) : Out :=
  .next (if s.build.arenaCap = some s.atop then raise .afull s
    else { s with slots := slotPut s.slots s.atop .zero, res := s.atop, atop := s.atop + 1 })

/-- `ACLOSE` (R182): pop back to the mark; the slots from it upward are dead and their content is dropped (R28). With
no mark it sets `AERR` and changes nothing else (R222). -/
def execAclose (s : State) : Out :=
  .next (match s.marks with
    | [] => raise .aerr s
    | m :: rest => { s with slots := s.slots.take m, atop := m, marks := rest })

end Sys2Proof.Machine
end

