-- ==== Sys2Proof/Machine/MulDivMod.lean ====
section
/-! DEFINITION. Multiplication, modulo, division (41_muldivmod.md): MUL, MOD, DIV, and the shift-subtract loop of R124
as the spec writes it. -/

namespace Sys2Proof.Machine

/-- The value function of R120: the low halves of the magnitudes, the product of the signs. -/
def mulV (b : Build) (x y : Value) : Value :=
  ⟨signMul x.sgn y.sgn, (x.mag % 2 ^ b.H) * (y.mag % 2 ^ b.H)⟩

/-- `MODV` of R122 for a modulus of non-zero magnitude: the remainder, normalised by one signed add of the modulus when
it is negative and not zero. -/
def modV (b : Build) (x m : Value) : Value :=
  let r := x.mag % m.mag
  if x.sgn = .pos then ⟨.pos, r⟩
  else if r = 0 then ⟨.pos, 0⟩
  else addV b ⟨.neg, r⟩ m

/-- The value function of R123: the quotient of the magnitudes, the product of the signs. -/
def divV (x m : Value) : Value := ⟨signMul x.sgn m.sgn, x.mag / m.mag⟩

/-- `MUL a, b` (R120). -/
def execMul (a b : Operand) (s : State) : Out :=
  withCell s .whole a fun x s => withCell s .whole b fun y s => .next (setCell s a (mulV s.build x y))

/-- `MOD a, b` (R122): PV U3 for a modulus of magnitude 0. -/
def execMod (a b : Operand) (s : State) : Out :=
  withCell s .whole a fun x s => withCell s .whole b fun m s =>
    if m.mag = 0 then .fault .zeroModulus else .next (setCell s a (modV s.build x m))

/-- `DIV a, b` (R123): PV U3 for a divisor of magnitude 0. -/
def execDiv (a b : Operand) (s : State) : Out :=
  withCell s .whole a fun x s => withCell s .whole b fun m s =>
    if m.mag = 0 then .fault .zeroModulus else .next (setCell s a (divV x m))

/-- The greatest `k` with `m·2^k ≤ a`, for `1 ≤ m ≤ a` (R124). -/
def greatestShift (a m : Nat) : Nat := Nat.log2 (a / m)

/-- The loop of R124 for at most `rounds` rounds, from quotient `q`: it answers the quotient and what is left of `a`, or
`none` when the rounds do not suffice. -/
def shiftSubtract : (rounds a m q : Nat) → Option (Nat × Nat)
  | 0, a, m, q => if m ≤ a then none else some (q, a)
  | n + 1, a, m, q =>
    if m ≤ a then
      let k := greatestShift a m
      shiftSubtract n (a - m * 2 ^ k) m (q + 2 ^ k)
    else some (q, a)

end Sys2Proof.Machine
end

