-- ==== Sys2Proof/Machine/Euclid.lean ====
section
/-! DEFINITION. The extended Euclidean unit (45_euclid.md): XEUC, INVMOD. -/

namespace Sys2Proof.Machine

/-- The `repeat` loop of R190 for at most `rounds` rounds: the coefficients of the first remainder `≤ 1`, or `none` when
that remainder is 0 (not coprime). The remainders fall strictly, so as many rounds as the second operand's magnitude
are enough (log entry 15). -/
def euclidLoop : (rounds r0 r1 : Nat) → (s0 t0 s1 t1 : Int) → Option (Int × Int)
  | 0, _, _, _, _, _, _ => none
  | n + 1, r0, r1, s0, t0, s1, t1 =>
    let q : Int := (r0 / r1 : Nat)
    let r2 := r0 % r1
    let s2 := s0 - q * s1
    let t2 := t0 - q * t1
    if r2 = 0 then none
    else if r2 = 1 then some (s2, t2)
    else euclidLoop n r1 r2 s1 t1 s2 t2

/-- `SOLVE` of R190: the Bézout pair, or the precondition violated: U5 first, then the base cases in the listed order
(90 C11), then U2. -/
def solve (b : Build) (x y : Value) : Except Fault (Int × Int) :=
  if x.sgn = .neg ∨ y.sgn = .neg ∨ 2 ^ b.H ≤ x.mag ∨ 2 ^ b.H ≤ y.mag then .error .euclidOperand
  else if x.mag = 1 then .ok (1, 0)
  else if y.mag = 1 then .ok (0, 1)
  else if x.mag = 0 ∨ y.mag = 0 then .error .notCoprime
  else match euclidLoop y.mag x.mag y.mag 1 0 0 1 with
    | some st => .ok st
    | none => .error .notCoprime

/-- `XEUC a, b` (R190): `s` to cell `a`, `t` to cell `b`. -/
def execXeuc (a b : Operand) (s : State) : Out :=
  withCell s .whole a fun x s => withCell s .whole b fun y s =>
    match solve s.build x y with
    | .ok st => .next (setCell (setCell s a (valueOfInt st.1)) b (valueOfInt st.2))
    | .error f => .fault f

/-- `INVMOD a, b` (R192): `solve(x, m).s mod m` to cell `a`; PV U3 for a zero modulus that `SOLVE` lets through. -/
def execInvmod (a b : Operand) (s : State) : Out :=
  withCell s .whole a fun x s => withCell s .whole b fun m s =>
    match solve s.build x m with
    | .ok st => if m.mag = 0 then .fault .zeroModulus else .next (setCell s a (modV s.build (valueOfInt st.1) m))
    | .error f => .fault f

end Sys2Proof.Machine
end

