-- ==== Sys2Proof/Machine/PowMod.lean ====
section
/-! DEFINITION. Modular exponentiation (42_powmod.md): POWMOD. -/

namespace Sys2Proof.Machine

/-- The loop of R130 over the next `n` bits of the exponent, from weight 0 upward: `e` holds the bits still to come,
`f` the running factor, `acc` the accumulator. -/
def powLoop (m : Nat) : (n e f acc : Nat) → Nat
  | 0, _, _, acc => acc
  | n + 1, e, f, acc => powLoop m n (e / 2) (f * f % m) (if e % 2 = 1 then acc * f % m else acc)

/-- `POWMODV` of R130 on magnitudes, for `1 ≤ m ≤ 2 ^ H`: the base reduced once up front, the accumulator from `ONE`,
all `W` bits of the exponent. -/
def powModV (b : Build) (base e m : Nat) : Nat := powLoop m b.W e (base % m) 1

/-- `POWMOD a, b, c` (R130): signs ignored, result sign `+1`; PV U3 for a zero modulus, U4 for one above `2 ^ H`. -/
def execPowmod (a b c : Operand) (s : State) : Out :=
  withCell s .whole a fun x s => withCell s .whole b fun e s => withCell s .whole c fun m s =>
    if m.mag = 0 then .fault .zeroModulus
    else if 2 ^ s.build.H < m.mag then .fault .modulusTooWide
    else .next (setCell s a ⟨.pos, powModV s.build x.mag e.mag m.mag⟩)

end Sys2Proof.Machine
end

