-- ==== Sys2Proof/Machine/Prime.lean ====
section
/-! DEFINITION. The Miller–Rabin primality tester (46_primality.md): ISPRIME. -/

namespace Sys2Proof.Machine

/-- The number of trailing zero bits of `n`, looking at no more than `fuel` bits (R200). -/
def trailingZeros : (fuel n : Nat) → Nat
  | 0, _ => 0
  | k + 1, n => if n % 2 = 0 then trailingZeros k (n / 2) + 1 else 0

/-- `y` lands on `n − 1` within `k` squarings modulo `n`, before the first included (R200 reading b). -/
def landsOn (n : Nat) : (k y : Nat) → Bool
  | 0, y => decide (y = n - 1)
  | k + 1, y => if y = n - 1 then true else landsOn n k (y * y % n)

/-- One round of R200 with witness `w`, for `n − 1 = d·2^s`: the first value is 1, or it lands on `n − 1` within `s − 1`
squarings. -/
def roundPasses (b : Build) (n s d w : Nat) : Bool :=
  let y := powModV b w d n
  decide (y = 1) || landsOn n (s - 1) y

/-- The rounds of R200, each with a fresh witness `draw(1, n − 1)`, up to the first that fails: the verdict, and the
random-bit source after the draws taken. -/
def primeRounds (b : Build) (n s d : Nat) : (acc : Nat) → Rng → Bool × Rng
  | 0, g => (true, g)
  | k + 1, g =>
    let w := g.draw 1 (n - 1)
    if roundPasses b n s d w.1 then primeRounds b n s d k w.2 else (false, w.2)

/-- The verdict of R200 for a number `n ≥ 1`: 1 is rejected outright with no draw. -/
def isPrimeV (b : Build) (n acc : Nat) (g : Rng) : Bool × Rng :=
  if n = 1 then (false, g)
  else
    let s := trailingZeros (n - 1) (n - 1)
    primeRounds b n s ((n - 1) / 2 ^ s) acc g

/-- `ISPRIME a, acc` (R200): the verdict to `T`, the operand unchanged; PV U7. -/
def execIsprime (a : Operand) (acc : Imm16) (s : State) : Out :=
  withCell s .whole a fun x s =>
    if x.sgn = .neg ∨ x.mag = 0 ∨ 2 ^ s.build.H < x.mag then .fault .primeOperand
    else
      let v := isPrimeV s.build x.mag acc.toNat s.rng
      .next (setT v.1 { s with rng := v.2 })

end Sys2Proof.Machine
end

