-- ==== Sys2Proof/Machine/ShiftBit.lean ====
section
/-! DEFINITION. Shifts, comparisons, bit access, random fill (43_shift_compare_bit.md): SHL, SHR, ABSGT, ABSGE, GETBIT,
SETBIT, RANDOMIZE. -/

namespace Sys2Proof.Machine

/-- `SHL a, n` (R140): the magnitude shifted left, the bits above `W` dropped, the sign untouched. -/
def execShl (a : Operand) (n : Imm16) (s : State) : Out :=
  withCell s .whole a fun x s => .next (setCell s a ⟨x.sgn, x.mag * 2 ^ n.toNat % 2 ^ s.build.W⟩)

/-- `SHR a, n` (R141): the magnitude shifted right, the sign untouched. -/
def execShr (a : Operand) (n : Imm16) (s : State) : Out :=
  withCell s .whole a fun x s => .next (setCell s a ⟨x.sgn, x.mag / 2 ^ n.toNat⟩)

/-- `ABSGT a, b` (R143). -/
def execAbsgt (a b : Operand) (s : State) : Out :=
  withCell s .whole a fun x s => withCell s .whole b fun y s => .next (setT (decide (y.mag < x.mag)) s)

/-- `ABSGE a, b` (R144). -/
def execAbsge (a b : Operand) (s : State) : Out :=
  withCell s .whole a fun x s => withCell s .whole b fun y s => .next (setT (decide (y.mag ≤ x.mag)) s)

/-- `GETBIT a, p` (R145). -/
def execGetbit (a : Operand) (p : Imm16) (s : State) : Out :=
  withCell s .whole a fun x s => .next (setT (bitPos s.build x p.toNat) s)

/-- `SETBIT a, p` (R146): sets to 1 only. -/
def execSetbit (a : Operand) (p : Imm16) (s : State) : Out :=
  withCell s .whole a fun x s => .next (setCell s a (setBitPos s.build x p.toNat))

/-- `RANDOMIZE a, nb` (R148): the low `nb` blocks random, the rest zero, the sign as it was; only the sign is read. -/
def execRandomize (a : Operand) (nb : Imm16) (s : State) : Out :=
  withCell s .sign a fun x s =>
    let d := s.rng.bits (nb.toNat * s.build.B)
    .next (setCell { s with rng := d.2 } a ⟨x.sgn, d.1⟩)

end Sys2Proof.Machine
end

