-- ==== Sys2Proof/Machine/System.lean ====
section
/-! DEFINITION. System commands and register access (48_system.md): CLRST, and the host actions on the CSRs of
10_state.md R30 to R37 other than issuing a command. -/

namespace Sys2Proof.Machine

/-- `CLRST` (R210). -/
def execClrst (s : State) : Out := .next (clearSticky s)

/-- `CFG`: `[15:0]` the low 16 bits of `N`, `[23:16]` `B` (R32; log entry 11 for `N = 65536`). -/
def cfgWord (b : Build) : Word := BitVec.ofNat 32 (b.N % 2 ^ 16 + b.B % 2 ^ 8 * 2 ^ 16)

/-- What `csr_read(n)` returns (R31 to R37); `CMD` reads 0, and a natural number shows modulo `2 ^ 32` (R34). -/
def csrValue (s : State) (n : Fin 8) : Word :=
  match n.val with
  | 0 => cfgWord s.build
  | 1 => statusWord s.status
  | 2 => BitVec.ofNat 32 s.atop
  | 3 => BitVec.ofNat 32 s.marks.length
  | 4 => BitVec.ofNat 32 s.res
  | 5 => s.din
  | 6 => s.dout
  | _ => 0

/-- `csr_read(n)`: the host gets the word, the CORE does not change (R67). -/
def csrRead (n : Fin 8) (s : State) : State := { s with replies := csrValue s n :: s.replies }

/-- `csr_write(5, w)`: `DIN` takes `w[B−1:0]` (R36). -/
def writeDin (w : Word) (s : State) : State := { s with din := BitVec.ofNat 32 (w.toNat % 2 ^ s.build.B) }

/-- `csr_write(n, w)` for `n` other than `CMD`: a read-only CSR does not change (R31). -/
def csrWrite (n : Fin 8) (w : Word) (s : State) : State := if n = 5 then writeDin w s else s

/-- The host action `reset` (R43, R250): nothing of the CORE survives but its build; the host's side of the interface
and the random-bit source are not the CORE's (log entry 24). -/
def doReset (s : State) : State :=
  { State.resetFor s.build with rng := s.rng, actions := s.actions, replies := s.replies }

end Sys2Proof.Machine
end

