-- ==== Sys2Proof/Machine/Transfer.lean ====
section
/-! DEFINITION. Constants, copies and host data transfer (47_transfer.md): LDZ, LDO, MOV, WRB, RDB, SETSGN, GETSGN. -/

namespace Sys2Proof.Machine

/-- `LDZ a` (R160). -/
def execLdz (a : Operand) (s : State) : Out :=
  withLive s a (.next (noteWhole (setCell s a .zero) a))

/-- `LDO a` (R161). -/
def execLdo (a : Operand) (s : State) : Out :=
  withLive s a (.next (noteWhole (setCell s a .one) a))

/-- `MOV a, b` (R162): sign and all blocks, negative zero as it is. -/
def execMov (a b : Operand) (s : State) : Out :=
  withLive s a <| withCell s .whole b fun v s => .next (noteWhole (setCell s a v) a)

/-- `WRB a, j` (R163): block `j` from `DIN`. -/
def execWrb (a : Operand) (j : Imm16) (s : State) : Out :=
  withLive s a (.next (noteBlock (blkWrite s a j.toNat s.din.toNat) a j.toNat))

/-- `RDB a, j` (R164): block `j` to `DOUT`. -/
def execRdb (a : Operand) (j : Imm16) (s : State) : Out :=
  withCell s (.block j.toNat) a fun v s => .next { s with dout := BitVec.ofNat 32 (blk s.build v j.toNat) }

/-- `SETSGN a, sb` (R165): the blocks are neither read nor written. -/
def execSetsgn (a : Operand) (sb : Sign) (s : State) : Out :=
  withLive s a (.next (noteSign (setCell s a ⟨sb, (cell s a).mag⟩) a))

/-- `GETSGN a` (R166): `T` is set for `−1`, for negative zero too. -/
def execGetsgn (a : Operand) (s : State) : Out :=
  withCell s .sign a fun v s => .next (setT (decide (v.sgn = .neg)) s)

end Sys2Proof.Machine
end

