-- ==== Sys2Proof/Machine/Dispatch.lean ====
section
/-! DEFINITION. The one dispatch from a command to its meaning. -/

namespace Sys2Proof.Machine

/-- The meaning of a command. -/
def exec (i : Instr) (s : State) : Host.Outcome State Fault Refusal :=
  match i with
  | .ldz a => Sys2Proof.Machine.execLdz a s
  | .ldo a => Sys2Proof.Machine.execLdo a s
  | .mov a b => Sys2Proof.Machine.execMov a b s
  | .wrb a j => Sys2Proof.Machine.execWrb a j s
  | .rdb a j => Sys2Proof.Machine.execRdb a j s
  | .setsgn a sb => Sys2Proof.Machine.execSetsgn a sb s
  | .getsgn a => Sys2Proof.Machine.execGetsgn a s
  | .add a b => Sys2Proof.Machine.execAdd a b s
  | .sub a b => Sys2Proof.Machine.execSub a b s
  | .abssub a b => Sys2Proof.Machine.execAbssub a b s
  | .mul a b => Sys2Proof.Machine.execMul a b s
  | .mod a b => Sys2Proof.Machine.execMod a b s
  | .div a b => Sys2Proof.Machine.execDiv a b s
  | .powmod a b c => Sys2Proof.Machine.execPowmod a b c s
  | .shl a n => Sys2Proof.Machine.execShl a n s
  | .shr a n => Sys2Proof.Machine.execShr a n s
  | .absgt a b => Sys2Proof.Machine.execAbsgt a b s
  | .absge a b => Sys2Proof.Machine.execAbsge a b s
  | .getbit a p => Sys2Proof.Machine.execGetbit a p s
  | .setbit a p => Sys2Proof.Machine.execSetbit a p s
  | .randomize a nb => Sys2Proof.Machine.execRandomize a nb s
  | .aopen => Sys2Proof.Machine.execAopen s
  | .aget => Sys2Proof.Machine.execAget s
  | .aclose => Sys2Proof.Machine.execAclose s
  | .xeuc a b => Sys2Proof.Machine.execXeuc a b s
  | .invmod a b => Sys2Proof.Machine.execInvmod a b s
  | .isprime a acc => Sys2Proof.Machine.execIsprime a acc s
  | .clrst => Sys2Proof.Machine.execClrst s

end Sys2Proof.Machine
end

