-- ==== Sys2Proof/Machine/Command.lean ====
section
/-! DEFINITION. Performing one host action (10_state.md R30): the CSR accesses, `reset`, and the write of `CMD` that
decodes and executes a command (R37). -/

namespace Sys2Proof.Machine

/-- `csr_write(7, w)`: decode `w` and execute it to completion (R37); an illegal word sets `ILL` and changes nothing
else (R95, R223). -/
def command (w : Word) (s : State) : Out :=
  match decode s.build w with
  | .ok i => exec i s
  | .error _ => .next (raise .ill s)

/-- One host action, atomic and complete before the next (R30, R66, R70). -/
def perform (act : HostAction) (s : State) : Out :=
  match act with
  | .csrRead n => .next (csrRead n s)
  | .csrWrite n w => if n = 7 then command w s else .next (csrWrite n w s)
  | .reset => .next (doReset s)

/-- The host writes the command word `w` next: it goes before the other pending actions. -/
def issueNext (w : Word) (s : State) : State := { s with actions := .csrWrite 7 w :: s.actions }

end Sys2Proof.Machine
end

