-- ==== Sys2Proof/Machine/Step.lean ====
section
/-! DEFINITION. One step of the machine: the oldest pending host action is performed (10_state.md R29, R30; 20_memory.md
R70). The CORE has no program counter and fetches nothing; with no action pending it does nothing (log entry 6). -/

namespace Sys2Proof.Machine

/-- One step. -/
def step (s : State) : Host.Outcome State Fault Refusal :=
  match s.actions with
  | [] => .next s
  | act :: rest => perform act { s with actions := rest }

/-- `s` with the command word of the opcode table's bits `w` as the host's next action, the one place a command comes
from (R37, R72; log entry 6). -/
def State.withFetchWord (s : State) (nbits w : Nat) : State := issueNext (BitVec.ofNat 32 (w % 2 ^ nbits)) s

end Sys2Proof.Machine
end

