-- ==== Sys2Proof/Machine/Macros.lean ====
section
/-! DEFINITION. The pseudo-commands and host macros of 30_encoding.md R99, as the commands and host actions they expand
to. -/

namespace Sys2Proof.Machine

/-- `SQR a` is `MUL a, a` (R99). -/
def sqr (a : Operand) : Instr := .mul a a

/-- `CLONE a, b` is `MOV a, b` (R99). -/
def clone (a b : Operand) : Instr := .mov a b

/-- The host issues a command: `csr_write(7, word)` (R98). -/
def issue (i : Instr) : HostAction := .csrWrite 7 (encode i)

/-- The actions of `LOADV` for one block: none for a block of zeros, else `DIN`, then `WRB`. -/
def loadBlock (b : Build) (a : Operand) (v : Value) (j : Nat) : List HostAction :=
  if blk b v j = 0 then []
  else [.csrWrite 5 (BitVec.ofNat 32 (blk b v j)), issue (.wrb a (BitVec.ofNat 16 j))]

/-- The host macro `LOADV a, v` (R99). DESIGN CHOICE (log entry 25): the blocks are visited from `j = 0` upward, an order
R99 leaves open; it decides which block value `DIN` holds afterwards. -/
def loadV (b : Build) (a : Operand) (v : Value) : List HostAction :=
  issue (.ldz a) :: ((List.range b.N).flatMap (loadBlock b a v) ++
    if v.sgn = .neg then [issue (.setsgn a .neg)] else [])

/-- The host macro `READV a` (R99). -/
def readV (b : Build) (a : Operand) : List HostAction :=
  (List.range b.N).flatMap (fun j => [issue (.rdb a (BitVec.ofNat 16 j)), .csrRead 6]) ++
    [issue (.getsgn a), .csrRead 1]

end Sys2Proof.Machine
end

