-- ==== Sys2Proof/Safety.lean ====
section
/-! DEFINITION. What claims about the machine are stated in: the invariant of every state, what a safe run is, what a
command reads and may write, frames, scopes of the arena, and the draws of a primality test. -/

namespace Sys2Proof.Machine

/-- The saved marks never rise from the top of the stack to its bottom, and none is above `top` (R27: "`marks` is
non-decreasing from bottom to top and every entry is `≤ ATOP`"). -/
def MarksBelow : (top : Nat) → List Nat → Prop
  | _, [] => True
  | top, m :: rest => m ≤ top ∧ MarksBelow m rest

/-- The invariant of a state at every command boundary. -/
structure Inv (s : State) : Prop where
  /-- the build's parameters are legal (R5) -/
  build : s.build.Wf
  /-- every register's magnitude fits `W` bits (R21, R22) -/
  regs : ∀ r : Fin 16, (s.regs[r]).mag < 2 ^ s.build.W
  /-- every slot's magnitude fits `W` bits (R21, R22) -/
  slots : ∀ v ∈ s.slots, v.mag < 2 ^ s.build.W
  /-- the slots held are exactly the live ones (R28; log entry 9) -/
  held : s.slots.length = s.atop
  /-- R27 -/
  marks : MarksBelow s.atop s.marks
  /-- R184 -/
  arenaCap : ∀ c ∈ s.build.arenaCap, s.atop ≤ c
  /-- R184 -/
  markCap : ∀ c ∈ s.build.markCap, s.marks.length ≤ c
  /-- `DIN` holds `B` bits (R36) -/
  din : s.din.toNat < 2 ^ s.build.B
  /-- `DOUT` holds `B` bits (R36) -/
  dout : s.dout.toNat < 2 ^ s.build.B
  /-- the record of written parts has one entry a block (R44) -/
  written : ∀ r : Fin 16, (s.written[r]).blocks.length = s.build.N

/-- A state no command of whose run so far the spec counts as a fault of a model besides the ones that stop it: no
`AFULL` (R184, R229) and no read of a never-written register (R44, U11). -/
abbrev Safe (s : State) : Prop := s.record = ⟨false, false⟩

/-- The cells a command writes (files 40 to 47); the arena commands name none. -/
def dests : Instr → List Operand
  | .ldz a | .ldo a | .mov a _ | .wrb a _ | .setsgn a _ | .add a _ | .sub a _ | .abssub a _ | .mul a _ | .mod a _
  | .div a _ | .powmod a _ _ | .shl a _ | .shr a _ | .setbit a _ | .randomize a _ | .invmod a _ => [a]
  | .xeuc a b => [a, b]
  | .rdb _ _ | .getsgn _ | .absgt _ _ | .absge _ _ | .getbit _ _ | .isprime _ _ | .aopen | .aget | .aclose | .clrst => []

/-- Every operand a command names, in field order. -/
def named : Instr → List Operand
  | .ldz a | .ldo a | .wrb a _ | .rdb a _ | .setsgn a _ | .getsgn a | .shl a _ | .shr a _ | .getbit a _ | .setbit a _
  | .randomize a _ | .isprime a _ => [a]
  | .mov a b | .add a b | .sub a b | .abssub a b | .mul a b | .mod a b | .div a b | .absgt a b | .absge a b
  | .xeuc a b | .invmod a b => [a, b]
  | .powmod a b c => [a, b, c]
  | .aopen | .aget | .aclose | .clrst => []

/-- What a command reads of which cell (files 40 to 47; log entry 3). -/
def reads : Instr → List (Part × Operand)
  | .ldz _ | .ldo _ | .wrb _ _ | .setsgn _ _ | .aopen | .aget | .aclose | .clrst => []
  | .mov _ b => [(.whole, b)]
  | .rdb a j => [(.block j.toNat, a)]
  | .getsgn a | .randomize a _ => [(.sign, a)]
  | .shl a _ | .shr a _ | .getbit a _ | .setbit a _ | .isprime a _ => [(.whole, a)]
  | .add a b | .sub a b | .abssub a b | .mul a b | .mod a b | .div a b | .absgt a b | .absge a b | .xeuc a b
  | .invmod a b => [(.whole, a), (.whole, b)]
  | .powmod a b c => [(.whole, a), (.whole, b), (.whole, c)]

/-- The three commands that change the arena (R185, R211). -/
def isArena : Instr → Bool
  | .aopen | .aget | .aclose => true
  | _ => false

/-- The five commands that write `T` (R33). -/
def writesT : Instr → Bool
  | .absgt _ _ | .absge _ _ | .getbit _ _ | .getsgn _ | .isprime _ _ => true
  | _ => false

/-- What a command that writes the cells `ds` leaves alone in every case: every other cell, slots no specifier can name
included; the arena pointers; `RES`; `DIN`; the build; the sticky flags; the host's side. -/
structure Frame (ds : List Operand) (s t : State) : Prop where
  regs : ∀ r : Fin 16, Operand.g r ∉ ds → t.regs[r] = s.regs[r]
  slots : ∀ k : Nat, (∀ j : Fin 128, Operand.s j ∈ ds → j.val ≠ k) → slotAt t.slots k = slotAt s.slots k
  atop : t.atop = s.atop
  marks : t.marks = s.marks
  res : t.res = s.res
  din : t.din = s.din
  build : t.build = s.build
  aerr : t.status.aerr = s.status.aerr
  ill : t.status.ill = s.status.ill
  afull : t.status.afull = s.status.afull
  recordAfull : t.record.afull = s.record.afull
  actions : t.actions = s.actions
  replies : t.replies = s.replies

/-- `T` as it was. -/
abbrev KeepsT (s t : State) : Prop := t.status.t = s.status.t

/-- `DOUT` as it was. -/
abbrev KeepsDout (s t : State) : Prop := t.dout = s.dout

/-- No random value taken. -/
abbrev KeepsRng (s t : State) : Prop := t.rng = s.rng

/-- Which parts of the registers outside `ds` were written, as it was (R44). -/
def KeepsWritten (ds : List Operand) (s t : State) : Prop :=
  ∀ r : Fin 16, Operand.g r ∉ ds → t.written[r] = s.written[r]

/-- `Frame` of an arithmetic command: nothing but the cells `ds` and the model's record of reads. -/
structure OnlyCells (ds : List Operand) (s t : State) : Prop where
  frame : Frame ds s t
  keepsT : KeepsT s t
  dout : KeepsDout s t
  rng : KeepsRng s t
  written : KeepsWritten [] s t

/-- `Frame` of a command whose one result is `T`. -/
structure OnlyT (s t : State) : Prop where
  frame : Frame [] s t
  dout : KeepsDout s t
  rng : KeepsRng s t
  written : KeepsWritten [] s t

/-- Commands performed one after another, stopping at the first that does not answer a next state. -/
def execAll : List Instr → State → Out
  | [], s => .next s
  | i :: rest, s => match exec i s with
    | .next t => execAll rest t
    | .fault f => .fault f
    | .refused r => .refused r

/-- The command sequences inside one scope of the arena (R183): `AGET` and commands that are no arena commands, and
`AOPEN` with its own `ACLOSE` around such a sequence. -/
inductive Scoped : List Instr → Prop where
  | nil : Scoped []
  | get {l : List Instr} (h : Scoped l) : Scoped (.aget :: l)
  | other {i : Instr} {l : List Instr} (hi : isArena i = false) (h : Scoped l) : Scoped (i :: l)
  | pair {l m : List Instr} (hl : Scoped l) (hm : Scoped m) : Scoped (.aopen :: l ++ .aclose :: m)

/-- The first `k` values of `draw(lo, hi)` from a random-bit source, in order. -/
def drawList (lo hi : Nat) : (k : Nat) → Rng → List Nat
  | 0, _ => []
  | k + 1, g => (g.draw lo hi).1 :: drawList lo hi k (g.draw lo hi).2

/-- A random-bit source after `k` draws. -/
def rngAfter (lo hi : Nat) : (k : Nat) → Rng → Rng
  | 0, g => g
  | k + 1, g => rngAfter lo hi k (g.draw lo hi).2

/-- `w` is a passing witness of `n` for `n − 1 = d·2^s` (R201). -/
def Passing (n s d w : Nat) : Prop := w ^ d % n = 1 ∨ ∃ j ≤ s - 1, w ^ (d * 2 ^ j) % n = n - 1

end Sys2Proof.Machine
end

