-- ==== Sys2Proof/Certificates/Slice0/Obligations.lean ====
section
/-! DEFINITION. The statements for the provers, from the numbered rules of spec/. Every statement is for every build of
the CORE and every state, reachable or not, unless a premise says otherwise. -/

open Sys2Proof Sys2Proof.Machine

/-! ## Encoding -/

/-- R80, R81, R84, R85, R88: no bit of an encoding is dropped: a legal command's word decodes to it, with every operand
and immediate at every value the build admits. -/
def Obligations.DecodeOfEncode : Prop :=
  ∀ (b : Build) (i : Instr), WellFormed b i → decode b (encode i) = .ok i

/-- R81 ("A field a format does not use must be zero"), R95: a word that decodes is the word of its command, and the
command is legal in the build; so every legal word has one meaning. -/
def Obligations.EncodeOfDecode : Prop :=
  ∀ (b : Build) (w : Word) (i : Instr), decode b w = .ok i → WellFormed b i ∧ encode i = w

/-- R95: a word is illegal when any of the five tests holds, the first that holds being the reason (`illegalReason`
writes the tests over the opcode map of R88 as data), and issuing it sets `ILL` and changes nothing else. -/
def Obligations.IllegalWordSetsIllOnly : Prop :=
  ∀ (s : State) (w : Word) (rest : List HostAction) (r : IllegalWord),
    s.actions = .csrWrite 7 w :: rest →
    (decode s.build w = .error r ↔ illegalReason s.build w = some r) ∧
    ((∃ i, decode s.build w = .ok i) ↔ illegalReason s.build w = none) ∧
    (illegalReason s.build w = some r →
      step s = .next { s with actions := rest, status := { s.status with ill := true } })

/-- R88, R95: words written out from the spec's encodings decode to the commands they stand for. -/
def Obligations.SampleWordsDecode : Prop :=
  decode .t32 0x13010003#32 = .ok (.wrb (.g 1) 3) ∧
  decode .t32 0x20010200#32 = .ok (.add (.g 1) (.g 2)) ∧
  decode .t32 0x33010203#32 = .ok (.powmod (.g 1) (.g 2) (.g 3)) ∧
  decode .t32 0x4101000C#32 = .ok (.shr (.g 1) 12) ∧
  decode .t32 0x51000000#32 = .ok .aget ∧
  decode .t32 0x61800200#32 = .ok (.invmod (.s 0) (.g 2)) ∧
  decode .t32 0x62010001#32 = .ok (.isprime (.g 1) 1) ∧
  decode .t32 0x70000000#32 = .ok .clrst ∧
  decode .t32 0x44010020#32 = .error .badImmediate ∧
  decode .t256 0x44010020#32 = .ok (.getbit (.g 1) 32)

/-! ## Steps and host actions -/

/-- R37: when the host's next action writes `CMD` and the word decodes to `i`, the step is `exec` of `i` on the state
with that action done. The CORE has no program counter to move past the command (R29). The second half says the same of
`withFetchWord`. -/
def Obligations.StepRunsDecodedCommand : Prop :=
  (∀ (s : State) (w : Word) (rest : List HostAction) (i : Instr),
    s.actions = .csrWrite 7 w :: rest → decode s.build w = .ok i → step s = exec i { s with actions := rest }) ∧
  (∀ (s : State) (w : Nat) (i : Instr),
    decode s.build (BitVec.ofNat 32 (w % 2 ^ 32)) = .ok i → step (s.withFetchWord 32 w) = exec i s)

/-- R31 to R37, R67: `csr_read(n)` returns the CSR's content and changes nothing of the CORE. Two clauses are the
model's and no rule's: `CFG[15:0]` shows `N` modulo `2 ^ 16` (log entry 11, DESIGN CHOICE), and CSR 4 shows `RES` modulo
`2 ^ 32` (log entry 13, DEDUCED: R35 gives no view of a wider index). -/
def Obligations.CsrReadReturnsContent : Prop :=
  ∀ (s : State) (n : Fin 8) (rest : List HostAction), s.actions = .csrRead n :: rest →
    ∃ w : Word, step s = .next { s with actions := rest, replies := w :: s.replies } ∧
      (n = 0 → w.extractLsb' 0 16 = BitVec.ofNat 16 s.build.N ∧ w.extractLsb' 16 8 = BitVec.ofNat 8 s.build.B ∧
        w.extractLsb' 24 8 = 0) ∧
      (n = 1 → w.getLsbD 0 = s.status.t ∧ w.getLsbD 1 = s.status.aerr ∧ w.getLsbD 2 = s.status.ill ∧
        w.getLsbD 3 = s.status.afull ∧ w.extractLsb' 4 28 = 0) ∧
      (n = 2 → w.toNat = s.atop % 2 ^ 32) ∧
      (n = 3 → w.toNat = s.marks.length % 2 ^ 32) ∧
      (n = 4 → w.toNat = s.res % 2 ^ 32) ∧
      (n = 5 → w = s.din) ∧ (n = 6 → w = s.dout) ∧ (n = 7 → w = 0)

/-- R31, R36: `csr_write(5, w)` stores `w[B−1:0]`; a write to a read-only CSR changes nothing and sets no flag. -/
def Obligations.CsrWriteStoresDinOnly : Prop :=
  ∀ (s : State) (n : Fin 8) (w : Word) (rest : List HostAction), s.actions = .csrWrite n w :: rest →
    (n = 5 → ∃ d : Word, d.toNat = w.toNat % 2 ^ s.build.B ∧ step s = .next { s with actions := rest, din := d }) ∧
    (n ≠ 5 → n ≠ 7 → step s = .next { s with actions := rest })

/-- R43, R250: after the host action `reset` every piece of state for which the spec gives a value has it, every slot
is dead and no part of a register counts as written; the build stays. What the registers then hold is the model's
choice (log entry 2) and not stated. -/
def Obligations.ResetActionRestoresResetState : Prop :=
  ∀ (s : State) (rest : List HostAction), s.actions = .reset :: rest →
    ∃ t, step s = .next t ∧ t.atop = 0 ∧ t.marks = [] ∧ t.status = ⟨false, false, false, false⟩ ∧ t.res = 0 ∧
      t.din = 0 ∧ t.dout = 0 ∧ t.build = s.build ∧ (∀ k : Fin 128, live t (.s k) = false) ∧
      (∀ r : Fin 16, (t.written[r]).sign = false ∧ ∀ x ∈ (t.written[r]).blocks, x = false)

/-- R43: the state the machine starts in has every value the spec gives for reset. -/
def Obligations.ResetStateValues : Prop :=
  State.reset.atop = 0 ∧ State.reset.marks = [] ∧ State.reset.status = ⟨false, false, false, false⟩ ∧
    State.reset.res = 0 ∧ State.reset.din = 0 ∧ State.reset.dout = 0 ∧
    (∀ k : Fin 128, live State.reset (.s k) = false) ∧
    (∀ r : Fin 16, (State.reset.written[r]).whole = false) ∧ csrValue State.reset 0 = cfgWord State.reset.build

/-! ## Invariants of every step -/

/-- R5, R21, R22, R27, R36: the reset state of every legal build, the standard one among them, meets the invariant. The
magnitudes of the registers are the model's choice (log entry 2). -/
def Obligations.ResetMeetsInvariant : Prop :=
  (∀ b : Build, b.Wf → Inv (State.resetFor b)) ∧ Inv State.reset

/-- R21, R22, R27, R36, R184: from every state that meets the invariant (every magnitude fits `W` bits, the marks are
ordered and at most `ATOP`, the capacities hold, `DIN` and `DOUT` hold `B` bits), a step to a next state meets it. -/
def Obligations.StepKeepsInvariant : Prop :=
  ∀ s t : State, Inv s → step s = .next t → Inv t

/-- R32: `CFG` "never changes". -/
def Obligations.StepKeepsBuild : Prop :=
  ∀ s t : State, step s = .next t → t.build = s.build ∧ csrValue t 0 = csrValue s 0

/-- R210, R229: the model's record of `AFULL` and of a read of a never-written register outlives every step but a
`reset` (so `CLRST` too), and a set `AFULL` is on record whenever it was before the step. -/
def Obligations.RecordOutlivesSteps : Prop :=
  ∀ s t : State, step s = .next t → (∀ rest, s.actions ≠ .reset :: rest) →
    (s.record.afull = true → t.record.afull = true) ∧
    (s.record.unwritten = true → t.record.unwritten = true) ∧
    ((s.status.afull = true → s.record.afull = true) → t.status.afull = true → t.record.afull = true)

/-! ## Rules over all commands -/

/-- No command and no step is refused. -/
def Obligations.NothingIsRefused : Prop :=
  (∀ (i : Instr) (s : State) (r : Refusal), exec i s ≠ .refused r) ∧ (∀ (s : State) (r : Refusal), step s ≠ .refused r)

/-- R28, R225 U6, R228 (4): a command that names a dead slot, as source or destination, stops on it, before any
arithmetic precondition is judged. -/
def Obligations.DeadSlotStopsEveryCommand : Prop :=
  ∀ (i : Instr) (s : State), (∃ o ∈ named i, live s o = false) →
    ∃ k : Fin 128, Operand.s k ∈ named i ∧ s.atop ≤ k.val ∧ exec i s = .fault (.deadSlot k.val)

/-- R225: a command stops only on a precondition violation of its own row of the table. -/
def Obligations.FaultsAreListedViolations : Prop :=
  ∀ (i : Instr) (s : State) (f : Fault), exec i s = .fault f →
    match f with
    | .deadSlot k => ∃ j : Fin 128, j.val = k ∧ Operand.s j ∈ named i ∧ s.atop ≤ k
    | .absSubUnderflow => ∃ a b, i = .abssub a b ∧ (cell s a).mag < (cell s b).mag
    | .notCoprime => ∃ a b, (i = .xeuc a b ∨ i = .invmod a b) ∧ Nat.gcd (cell s a).mag (cell s b).mag ≠ 1
    | .zeroModulus => (∃ a b, (i = .mod a b ∨ i = .div a b ∨ i = .invmod a b) ∧ (cell s b).mag = 0) ∨
        ∃ a b c, i = .powmod a b c ∧ (cell s c).mag = 0
    | .modulusTooWide => ∃ a b c, i = .powmod a b c ∧ 2 ^ s.build.H < (cell s c).mag
    | .euclidOperand => ∃ a b, (i = .xeuc a b ∨ i = .invmod a b) ∧ ((cell s a).sgn = .neg ∨ (cell s b).sgn = .neg ∨
        2 ^ s.build.H ≤ (cell s a).mag ∨ 2 ^ s.build.H ≤ (cell s b).mag)
    | .primeOperand => ∃ a n, i = .isprime a n ∧
        ((cell s a).sgn = .neg ∨ (cell s a).mag = 0 ∨ 2 ^ s.build.H < (cell s a).mag)

/-- R33: `T` is written by `ABSGT`, `ABSGE`, `GETBIT`, `GETSGN`, `ISPRIME` "and by no other command". -/
def Obligations.OnlyFiveCommandsWriteT : Prop :=
  ∀ (i : Instr) (s t : State), exec i s = .next t → writesT i = false → t.status.t = s.status.t

/-- R33, R221: the sticky flags: `AERR` is set by an unmatched `ACLOSE` only, `AFULL` by an exhausted `AGET` or
`AOPEN` only, no executed command sets `ILL`, and only `CLRST` clears one. -/
def Obligations.StickyFlagsChangeAsListed : Prop :=
  ∀ (i : Instr) (s t : State), exec i s = .next t →
    (i = .clrst → t.status.aerr = false ∧ t.status.ill = false ∧ t.status.afull = false) ∧
    (i ≠ .clrst →
      t.status.ill = s.status.ill ∧
      (t.status.aerr = true ↔ s.status.aerr = true ∨ (i = .aclose ∧ s.marks = [])) ∧
      (t.status.afull = true ↔ s.status.afull = true ∨ (i = .aget ∧ s.build.arenaCap = some s.atop) ∨
        (i = .aopen ∧ s.build.markCap = some s.marks.length)))

/-- R185: every command but the three arena commands leaves `ATOP`, `marks`, `RES`, `AERR` and every live slot it does
not name as a destination as it found them, and sets no `AFULL`. -/
def Obligations.OnlyArenaCommandsMoveTheArena : Prop :=
  ∀ (i : Instr) (s t : State), exec i s = .next t → isArena i = false →
    t.atop = s.atop ∧ t.marks = s.marks ∧ t.res = s.res ∧
    (i ≠ .clrst → t.status.aerr = s.status.aerr ∧ t.status.afull = s.status.afull) ∧
    (∀ k : Nat, k < s.atop → (∀ j : Fin 128, Operand.s j ∈ dests i → j.val ≠ k) →
      slotAt t.slots k = slotAt s.slots k)

/-- R10, R24 ("a write to one changes no other"): a command changes no register but the ones it names as destinations,
and no slot live before and after it but those; nor `DIN`, the build, or the host's side. -/
def Obligations.CommandsWriteOnlyTheirDestinations : Prop :=
  ∀ (i : Instr) (s t : State), exec i s = .next t →
    (∀ o : Operand, o ∉ dests i → live s o = true → live t o = true → cell t o = cell s o) ∧
    t.din = s.din ∧ t.build = s.build ∧ t.actions = s.actions ∧ t.replies = s.replies

/-- R44, R148 (log entry 3): a command that reads a register, or the part of it it reads, that nothing has written since
reset is on the model's record, and no other command is entered there. -/
def Obligations.UnwrittenReadsAreRecorded : Prop :=
  ∀ (i : Instr) (s t : State), exec i s = .next t →
    t.record.unwritten = (s.record.unwritten || (reads i).any fun p => !wasWritten s p.1 p.2)

/-! ## Transfer (47_transfer.md) -/

/-- R160: `LDZ` writes `(+1, 0)`, nothing else, and the cell counts as written. -/
def Obligations.LdzLoadsZero : Prop :=
  ∀ (s : State) (a : Operand), live s a = true →
    encode (.ldz a) = 0x10#8 ++ a.spec ++ 0#16 ∧
    ∃ t, exec (.ldz a) s = .next t ∧ cell t a = ⟨.pos, 0⟩ ∧ wasWritten t .whole a = true ∧
      Frame [a] s t ∧ KeepsT s t ∧ KeepsDout s t ∧ KeepsRng s t ∧ KeepsWritten [a] s t

/-- R161: `LDO` writes `(+1, 1)`, nothing else, and the cell counts as written. -/
def Obligations.LdoLoadsOne : Prop :=
  ∀ (s : State) (a : Operand), live s a = true →
    encode (.ldo a) = 0x11#8 ++ a.spec ++ 0#16 ∧
    ∃ t, exec (.ldo a) s = .next t ∧ cell t a = ⟨.pos, 1⟩ ∧ wasWritten t .whole a = true ∧
      Frame [a] s t ∧ KeepsT s t ∧ KeepsDout s t ∧ KeepsRng s t ∧ KeepsWritten [a] s t

/-- R162: `MOV` copies sign and all blocks; with `a = b` no change; the cell counts as written. -/
def Obligations.MovCopiesCell : Prop :=
  ∀ (s : State) (a b : Operand), live s a = true → live s b = true →
    encode (.mov a b) = 0x12#8 ++ a.spec ++ b.spec ++ 0#8 ∧
    ∃ t, exec (.mov a b) s = .next t ∧ cell t a = cell s b ∧ wasWritten t .whole a = true ∧
      Frame [a] s t ∧ KeepsT s t ∧ KeepsDout s t ∧ KeepsRng s t ∧ KeepsWritten [a] s t

/-- R163, R64: `WRB` replaces block `j` by `DIN[B−1:0]`; the other blocks and the sign keep their values; block `j`
counts as written. -/
def Obligations.WrbWritesOneBlock : Prop :=
  ∀ (s : State) (a : Operand) (j : Imm16), live s a = true → j.toNat < s.build.N →
    encode (.wrb a j) = 0x13#8 ++ a.spec ++ j ∧
    ∃ t, exec (.wrb a j) s = .next t ∧ (cell t a).sgn = (cell s a).sgn ∧
      (cell t a).mag = (cell s a).mag - blk s.build (cell s a) j.toNat * 2 ^ (s.build.B * (s.build.N - 1 - j.toNat)) +
        s.din.toNat % 2 ^ s.build.B * 2 ^ (s.build.B * (s.build.N - 1 - j.toNat)) ∧
      blk s.build (cell t a) j.toNat = s.din.toNat % 2 ^ s.build.B ∧
      (∀ k < s.build.N, k ≠ j.toNat → blk s.build (cell t a) k = blk s.build (cell s a) k) ∧
      (∀ r : Fin 16, a = .g r → (t.written[r]).sign = (s.written[r]).sign ∧
        (t.written[r]).blocks = (s.written[r]).blocks.set j.toNat true) ∧
      Frame [a] s t ∧ KeepsT s t ∧ KeepsDout s t ∧ KeepsRng s t ∧ KeepsWritten [a] s t

/-- R164, R63: `RDB` copies block `j` to `DOUT`; the cell is unchanged. -/
def Obligations.RdbReadsOneBlock : Prop :=
  ∀ (s : State) (a : Operand) (j : Imm16), live s a = true → j.toNat < s.build.N → s.build.B ≤ 32 →
    encode (.rdb a j) = 0x14#8 ++ a.spec ++ j ∧
    ∃ t, exec (.rdb a j) s = .next t ∧
      t.dout.toNat = (cell s a).mag / 2 ^ (s.build.B * (s.build.N - 1 - j.toNat)) % 2 ^ s.build.B ∧
      Frame [] s t ∧ KeepsT s t ∧ KeepsRng s t ∧ KeepsWritten [] s t

/-- R165: `SETSGN` writes the sign (0 for `+1`, 1 for `−1`) and leaves the blocks; the sign counts as written. -/
def Obligations.SetsgnWritesSign : Prop :=
  ∀ (s : State) (a : Operand) (sb : Sign), live s a = true →
    encode (.setsgn a sb) = 0x15#8 ++ a.spec ++ (if sb = .pos then 0#16 else 1#16) ∧
    ∃ t, exec (.setsgn a sb) s = .next t ∧ cell t a = ⟨sb, (cell s a).mag⟩ ∧
      (∀ r : Fin 16, a = .g r → (t.written[r]).sign = true ∧ (t.written[r]).blocks = (s.written[r]).blocks) ∧
      Frame [a] s t ∧ KeepsT s t ∧ KeepsDout s t ∧ KeepsRng s t ∧ KeepsWritten [a] s t

/-- R166: `GETSGN` sets `T` exactly for sign `−1`, negative zero included. -/
def Obligations.GetsgnReadsSign : Prop :=
  ∀ (s : State) (a : Operand), live s a = true →
    encode (.getsgn a) = 0x16#8 ++ a.spec ++ 0#16 ∧
    ∃ t, exec (.getsgn a) s = .next t ∧ (t.status.t = true ↔ (cell s a).sgn = .neg) ∧ OnlyT s t

/-! ## Addition and subtraction (40_addsub.md) -/

/-- R110: signed addition: the truncated sum of equal signs, the four rows of the truth table, and the exact sum when
nothing is truncated. -/
def Obligations.AddIsSignedTruncatingSum : Prop :=
  ∀ (s : State) (a b : Operand), live s a = true → live s b = true →
    encode (.add a b) = 0x20#8 ++ a.spec ++ b.spec ++ 0#8 ∧
    ∃ t, exec (.add a b) s = .next t ∧ OnlyCells [a] s t ∧
      ((cell s a).sgn = (cell s b).sgn →
        cell t a = ⟨(cell s a).sgn, ((cell s a).mag + (cell s b).mag) % 2 ^ s.build.W⟩) ∧
      ((cell s a).sgn = .pos → (cell s b).sgn = .neg → (cell s b).mag ≤ (cell s a).mag →
        cell t a = ⟨.pos, (cell s a).mag - (cell s b).mag⟩) ∧
      ((cell s a).sgn = .pos → (cell s b).sgn = .neg → (cell s a).mag < (cell s b).mag →
        cell t a = ⟨.neg, (cell s b).mag - (cell s a).mag⟩) ∧
      ((cell s a).sgn = .neg → (cell s b).sgn = .pos → (cell s b).mag ≤ (cell s a).mag →
        cell t a = ⟨.neg, (cell s a).mag - (cell s b).mag⟩) ∧
      ((cell s a).sgn = .neg → (cell s b).sgn = .pos → (cell s a).mag < (cell s b).mag →
        cell t a = ⟨.pos, (cell s b).mag - (cell s a).mag⟩) ∧
      (((cell s a).sgn = (cell s b).sgn → (cell s a).mag + (cell s b).mag < 2 ^ s.build.W) →
        intVal (cell t a) = intVal (cell s a) + intVal (cell s b))

/-- R111: signed subtraction: `ADD` with the operand's sign flipped, and the exact difference when nothing is
truncated. -/
def Obligations.SubIsSignedTruncatingDifference : Prop :=
  ∀ (s : State) (a b : Operand), live s a = true → live s b = true →
    encode (.sub a b) = 0x21#8 ++ a.spec ++ b.spec ++ 0#8 ∧
    ∃ t, exec (.sub a b) s = .next t ∧ OnlyCells [a] s t ∧
      ((cell s a).sgn ≠ (cell s b).sgn →
        cell t a = ⟨(cell s a).sgn, ((cell s a).mag + (cell s b).mag) % 2 ^ s.build.W⟩) ∧
      ((cell s a).sgn = (cell s b).sgn → (cell s b).mag ≤ (cell s a).mag →
        cell t a = ⟨(cell s a).sgn, (cell s a).mag - (cell s b).mag⟩) ∧
      ((cell s a).sgn = .pos → (cell s b).sgn = .pos → (cell s a).mag < (cell s b).mag →
        cell t a = ⟨.neg, (cell s b).mag - (cell s a).mag⟩) ∧
      ((cell s a).sgn = .neg → (cell s b).sgn = .neg → (cell s a).mag < (cell s b).mag →
        cell t a = ⟨.pos, (cell s b).mag - (cell s a).mag⟩) ∧
      (((cell s a).sgn ≠ (cell s b).sgn → (cell s a).mag + (cell s b).mag < 2 ^ s.build.W) →
        intVal (cell t a) = intVal (cell s a) - intVal (cell s b))

/-- R112, U1: magnitude subtraction, the receiver keeping its sign; a smaller receiver is a precondition violation. -/
def Obligations.AbssubSubtractsMagnitudes : Prop :=
  ∀ (s : State) (a b : Operand), live s a = true → live s b = true →
    encode (.abssub a b) = 0x22#8 ++ a.spec ++ b.spec ++ 0#8 ∧
    ((cell s b).mag ≤ (cell s a).mag → ∃ t, exec (.abssub a b) s = .next t ∧ OnlyCells [a] s t ∧
      cell t a = ⟨(cell s a).sgn, (cell s a).mag - (cell s b).mag⟩) ∧
    ((cell s a).mag < (cell s b).mag → exec (.abssub a b) s = .fault .absSubUnderflow)

/-! ## Multiplication, modulo, division (41_muldivmod.md) -/

/-- R120: the product of the low halves with the product of the signs: it always fits, and it is exact when both
magnitudes are below `2 ^ H`. -/
def Obligations.MulMultipliesLowHalves : Prop :=
  ∀ (s : State) (a b : Operand), live s a = true → live s b = true →
    encode (.mul a b) = 0x30#8 ++ a.spec ++ b.spec ++ 0#8 ∧
    ∃ t, exec (.mul a b) s = .next t ∧ OnlyCells [a] s t ∧
      (cell t a).mag = (cell s a).mag % 2 ^ s.build.H * ((cell s b).mag % 2 ^ s.build.H) ∧
      ((cell t a).sgn = .pos ↔ (cell s a).sgn = (cell s b).sgn) ∧
      (s.build.Wf → (cell t a).mag < 2 ^ s.build.W) ∧
      ((cell s a).mag < 2 ^ s.build.H → (cell s b).mag < 2 ^ s.build.H →
        intVal (cell t a) = intVal (cell s a) * intVal (cell s b))

/-- R122, R125: the remainder, normalised once; with a positive modulus the least non-negative residue of the value; a
zero modulus is a precondition violation (U3). -/
def Obligations.ModReducesToResidue : Prop :=
  ∀ (s : State) (a b : Operand), live s a = true → live s b = true →
    encode (.mod a b) = 0x31#8 ++ a.spec ++ b.spec ++ 0#8 ∧
    ((cell s b).mag = 0 → exec (.mod a b) s = .fault .zeroModulus) ∧
    ((cell s b).mag ≠ 0 → ∃ t, exec (.mod a b) s = .next t ∧ OnlyCells [a] s t ∧
      ((cell s a).sgn = .pos → cell t a = ⟨.pos, (cell s a).mag % (cell s b).mag⟩) ∧
      ((cell s a).mag % (cell s b).mag = 0 → cell t a = ⟨.pos, 0⟩) ∧
      ((cell s a).sgn = .neg → (cell s b).sgn = .pos → (cell s a).mag % (cell s b).mag ≠ 0 →
        cell t a = ⟨.pos, (cell s b).mag - (cell s a).mag % (cell s b).mag⟩) ∧
      ((cell s a).sgn = .neg → (cell s b).sgn = .neg → (cell s a).mag % (cell s b).mag ≠ 0 →
        cell t a = ⟨.neg, ((cell s a).mag % (cell s b).mag + (cell s b).mag) % 2 ^ s.build.W⟩) ∧
      ((cell s b).sgn = .pos → intVal (cell t a) = intVal (cell s a) % ((cell s b).mag : Int)))

/-- R123, R125: the quotient of the magnitudes with the product of the signs, so the value's quotient toward zero; a
zero divisor is a precondition violation (U3). -/
def Obligations.DivTruncatesTowardZero : Prop :=
  ∀ (s : State) (a b : Operand), live s a = true → live s b = true →
    encode (.div a b) = 0x32#8 ++ a.spec ++ b.spec ++ 0#8 ∧
    ((cell s b).mag = 0 → exec (.div a b) s = .fault .zeroModulus) ∧
    ((cell s b).mag ≠ 0 → ∃ t, exec (.div a b) s = .next t ∧ OnlyCells [a] s t ∧
      (cell t a).mag = (cell s a).mag / (cell s b).mag ∧
      ((cell t a).sgn = .pos ↔ (cell s a).sgn = (cell s b).sgn) ∧
      intVal (cell t a) = Int.tdiv (intVal (cell s a)) (intVal (cell s b)))

/-- R124: the shared shift-subtract loop of `MOD` and `DIV`, with `k` the greatest shift, ends within `W` rounds with the
quotient and the remainder. -/
def Obligations.ShiftSubtractLoopDivides : Prop :=
  (∀ a m : Nat, 1 ≤ m → m ≤ a → m * 2 ^ greatestShift a m ≤ a ∧ ∀ k, m * 2 ^ k ≤ a → k ≤ greatestShift a m) ∧
  (∀ (b : Build) (a m : Nat), 1 ≤ m → a < 2 ^ b.W → shiftSubtract b.W a m 0 = some (a / m, a % m))

/-! ## Modular exponentiation (42_powmod.md) -/

/-- R130: the closed form of `POWMOD` under its preconditions, signs ignored, exponent 0 giving 1 for every modulus;
outside them a precondition violation (U3, U4). That the exponent fits `W` bits is part of the invariant. -/
def Obligations.PowmodIsModularPower : Prop :=
  ∀ (s : State) (a b c : Operand), live s a = true → live s b = true → live s c = true →
    encode (.powmod a b c) = 0x33#8 ++ a.spec ++ b.spec ++ c.spec ∧
    ((cell s c).mag = 0 → exec (.powmod a b c) s = .fault .zeroModulus) ∧
    (2 ^ s.build.H < (cell s c).mag → exec (.powmod a b c) s = .fault .modulusTooWide) ∧
    (1 ≤ (cell s c).mag → (cell s c).mag ≤ 2 ^ s.build.H → (cell s b).mag < 2 ^ s.build.W →
      ∃ t, exec (.powmod a b c) s = .next t ∧ OnlyCells [a] s t ∧
        cell t a = ⟨.pos, if (cell s b).mag = 0 then 1
          else ((cell s a).mag % (cell s c).mag) ^ (cell s b).mag % (cell s c).mag⟩)

/-! ## Shifts, comparisons, bits, random fill (43_shift_compare_bit.md) -/

/-- R140, R141: the logical shifts of the magnitude for every count up to 65535, the sign untouched. -/
def Obligations.ShiftsMoveMagnitude : Prop :=
  ∀ (s : State) (a : Operand) (n : Imm16), live s a = true →
    (encode (.shl a n) = 0x40#8 ++ a.spec ++ n ∧ ∃ t, exec (.shl a n) s = .next t ∧ OnlyCells [a] s t ∧
      cell t a = ⟨(cell s a).sgn, (cell s a).mag * 2 ^ n.toNat % 2 ^ s.build.W⟩ ∧
      (s.build.W ≤ n.toNat → (cell t a).mag = 0)) ∧
    (encode (.shr a n) = 0x41#8 ++ a.spec ++ n ∧ ∃ t, exec (.shr a n) s = .next t ∧ OnlyCells [a] s t ∧
      cell t a = ⟨(cell s a).sgn, (cell s a).mag / 2 ^ n.toNat⟩ ∧
      ((cell s a).mag < 2 ^ s.build.W → s.build.W ≤ n.toNat → (cell t a).mag = 0))

/-- R142: left then right clears the top `n` bits, right then left the bottom `n`, and successive shifts in one
direction add, beyond 65535 too. That the magnitude fits `W` bits is part of the invariant. -/
def Obligations.ShiftLaws : Prop :=
  ∀ (s : State) (a : Operand) (n m : Imm16), live s a = true → (cell s a).mag < 2 ^ s.build.W →
    (∃ t, execAll [.shl a n, .shr a n] s = .next t ∧
      cell t a = ⟨(cell s a).sgn, (cell s a).mag % 2 ^ (s.build.W - n.toNat)⟩) ∧
    (∃ t, execAll [.shr a n, .shl a n] s = .next t ∧
      cell t a = ⟨(cell s a).sgn, (cell s a).mag - (cell s a).mag % 2 ^ n.toNat⟩) ∧
    (∃ t, execAll [.shl a n, .shl a m] s = .next t ∧
      cell t a = ⟨(cell s a).sgn, (cell s a).mag * 2 ^ (n.toNat + m.toNat) % 2 ^ s.build.W⟩) ∧
    (∃ t, execAll [.shr a n, .shr a m] s = .next t ∧
      cell t a = ⟨(cell s a).sgn, (cell s a).mag / 2 ^ (n.toNat + m.toNat)⟩)

/-- R143, R144: the comparisons look at magnitudes only and write `T` only. -/
def Obligations.ComparisonsSetT : Prop :=
  ∀ (s : State) (a b : Operand), live s a = true → live s b = true →
    (encode (.absgt a b) = 0x42#8 ++ a.spec ++ b.spec ++ 0#8 ∧ ∃ t, exec (.absgt a b) s = .next t ∧ OnlyT s t ∧
      (t.status.t = true ↔ (cell s a).mag > (cell s b).mag)) ∧
    (encode (.absge a b) = 0x43#8 ++ a.spec ++ b.spec ++ 0#8 ∧ ∃ t, exec (.absge a b) s = .next t ∧ OnlyT s t ∧
      (t.status.t = true ↔ (cell s a).mag ≥ (cell s b).mag))

/-- R145: `GETBIT` puts the bit of weight `2 ^ (W − 1 − p)` in `T`. -/
def Obligations.GetbitReadsPosition : Prop :=
  ∀ (s : State) (a : Operand) (p : Imm16), live s a = true → p.toNat < s.build.W →
    encode (.getbit a p) = 0x44#8 ++ a.spec ++ p ∧
    ∃ t, exec (.getbit a p) s = .next t ∧ OnlyT s t ∧ t.status.t = (cell s a).mag.testBit (s.build.W - 1 - p.toNat)

/-- R146: `SETBIT` sets the bit of weight `2 ^ (W − 1 − p)` to 1; every other bit and the sign stay. -/
def Obligations.SetbitSetsPosition : Prop :=
  ∀ (s : State) (a : Operand) (p : Imm16), live s a = true → p.toNat < s.build.W →
    encode (.setbit a p) = 0x45#8 ++ a.spec ++ p ∧
    ∃ t, exec (.setbit a p) s = .next t ∧ OnlyCells [a] s t ∧ (cell t a).sgn = (cell s a).sgn ∧
      ∀ k, (cell t a).mag.testBit k = (decide (k = s.build.W - 1 - p.toNat) || (cell s a).mag.testBit k)

/-- R62: the bit at position `p` is bit `B − 1 − (p mod B)` of block `p div B`: the two views of a cell agree, for every
value and every legal build. -/
def Obligations.BitPositionsLieInBlocks : Prop :=
  ∀ (b : Build) (v : Value) (p : Nat), b.Wf → p < b.W →
    bitPos b v p = (blk b v (p / b.B)).testBit (b.B - 1 - p % b.B)

/-- R148: `RANDOMIZE` leaves the sign, zeroes all but the low `nb` blocks and fills those with some value, whatever the
random-bit source delivers. -/
def Obligations.RandomizeFillsLowBlocks : Prop :=
  ∀ (s : State) (a : Operand) (nb : Imm16), live s a = true → nb.toNat ≤ s.build.N →
    encode (.randomize a nb) = 0x46#8 ++ a.spec ++ nb ∧
    ∃ t, exec (.randomize a nb) s = .next t ∧ (cell t a).sgn = (cell s a).sgn ∧
      (cell t a).mag < 2 ^ (nb.toNat * s.build.B) ∧ (s.build.Wf → ∀ j < s.build.N - nb.toNat,
        blk s.build (cell t a) j = 0) ∧
      Frame [a] s t ∧ KeepsT s t ∧ KeepsDout s t ∧ KeepsWritten [] s t

/-- R148 ("Every one of the `2^(nb × B)` values is a possible outcome and a model must admit all of them"): each is the
outcome for some delivery of the random-bit source. -/
def Obligations.RandomizeAdmitsEveryValue : Prop :=
  ∀ (s : State) (a : Operand) (nb : Imm16) (v : Nat), live s a = true → s.build.Wf → nb.toNat ≤ s.build.N →
    v < 2 ^ (nb.toNat * s.build.B) →
    ∃ (g : Rng) (t : State), exec (.randomize a nb) { s with rng := g } = .next t ∧ cell t a = ⟨(cell s a).sgn, v⟩

/-! ## The arena (44_arena.md) -/

/-- R180, R184: `AOPEN` pushes `ATOP` and changes nothing else; with the mark stack full it sets `AFULL` and nothing
else of the machine. That the run then goes on, with the model's record set, is log entry 5 (DEDUCED). -/
def Obligations.AopenPushesMark : Prop :=
  ∀ s : State, encode .aopen = 0x50000000#32 ∧
    (s.build.markCap ≠ some s.marks.length → exec .aopen s = .next { s with marks := s.atop :: s.marks }) ∧
    (s.build.markCap = some s.marks.length → exec .aopen s = .next { s with
      status := { s.status with afull := true }, record := { s.record with afull := true } })

/-- R181, R184: `AGET` hands out slot `ATOP` as `ZERO`, tells its index in `RES` and raises `ATOP`; every other slot
stays; with the arena full it sets `AFULL` and nothing else of the machine. That the run then goes on, with the model's
record set, is log entry 5 (DEDUCED). -/
def Obligations.AgetHandsOutZeroSlot : Prop :=
  ∀ s : State, encode .aget = 0x51000000#32 ∧
    (s.build.arenaCap ≠ some s.atop → ∃ l : List Value,
      exec .aget s = .next { s with slots := l, res := s.atop, atop := s.atop + 1 } ∧
      slotAt l s.atop = ⟨.pos, 0⟩ ∧ ∀ k, k ≠ s.atop → slotAt l k = slotAt s.slots k) ∧
    (s.build.arenaCap = some s.atop → exec .aget s = .next { s with
      status := { s.status with afull := true }, record := { s.record with afull := true } })

/-- R182, R222: `ACLOSE` pops the mark into `ATOP`; slots below it keep their content, slots from it upward are dead;
with no mark it sets `AERR` and changes nothing else. -/
def Obligations.AclosePopsMark : Prop :=
  ∀ s : State, encode .aclose = 0x52000000#32 ∧
    (s.marks = [] → exec .aclose s = .next { s with status := { s.status with aerr := true } }) ∧
    (∀ m rest, s.marks = m :: rest → ∃ l : List Value,
      exec .aclose s = .next { s with slots := l, atop := m, marks := rest } ∧
      (∀ k < m, slotAt l k = slotAt s.slots k) ∧
      ∀ k : Fin 128, m ≤ k.val → live { s with slots := l, atop := m, marks := rest } (.s k) = false)

/-- R183: `AOPEN`, any sequence inside its scope, `ACLOSE`: `ATOP` and `marks` are restored, and every register and every
slot live before keeps its content unless a command of the sequence named it as destination, provided no `AFULL` is on
the model's record at the end (R184; log entry 5), so none is at the start. -/
def Obligations.ArenaScopeRestores : Prop :=
  ∀ (l : List Instr) (s t : State), Scoped l → execAll (.aopen :: l ++ [.aclose]) s = .next t →
    t.record.afull = false →
    t.atop = s.atop ∧ t.marks = s.marks ∧
      ∀ o : Operand, live s o = true → o ∉ l.flatMap dests → cell t o = cell s o

/-! ## The extended Euclidean unit (45_euclid.md) -/

/-- R190: under its preconditions `XEUC` completes with `s·a + t·b = 1` exactly; the base cases give `(1, 0)` and
`(0, 1)`, `a = 1` first; otherwise the pair is the bounded one, `2|s| ≤ b` and `2|t| ≤ a`, which determines it. A zero is
written `+0`. -/
def Obligations.XeucGivesBezoutPair : Prop :=
  ∀ (s : State) (a b : Operand), live s a = true → live s b = true → a ≠ b →
    (cell s a).sgn = .pos → (cell s b).sgn = .pos →
    (cell s a).mag < 2 ^ s.build.H → (cell s b).mag < 2 ^ s.build.H → Nat.gcd (cell s a).mag (cell s b).mag = 1 →
    encode (.xeuc a b) = 0x60#8 ++ a.spec ++ b.spec ++ 0#8 ∧
    ∃ t, exec (.xeuc a b) s = .next t ∧ OnlyCells [a, b] s t ∧
      intVal (cell t a) * (cell s a).mag + intVal (cell t b) * (cell s b).mag = 1 ∧
      ((cell s a).mag = 1 → cell t a = ⟨.pos, 1⟩ ∧ cell t b = ⟨.pos, 0⟩) ∧
      ((cell s a).mag ≠ 1 → (cell s b).mag = 1 → cell t a = ⟨.pos, 0⟩ ∧ cell t b = ⟨.pos, 1⟩) ∧
      ((cell s a).mag ≠ 1 → (cell s b).mag ≠ 1 →
        2 * (cell t a).mag ≤ (cell s b).mag ∧ 2 * (cell t b).mag ≤ (cell s a).mag)

/-- R190, R192, R225 U2, U5: outside the preconditions on signs, size and coprimality `XEUC` and `INVMOD` stop. Which
violation is named where several hold is the model's choice (log entry 18, DESIGN CHOICE; R228 (3) leaves it open): U5
before U2, and U2 before U3 for `INVMOD` with a zero modulus and a number other than 1. -/
def Obligations.EuclidStopsOutsidePreconditions : Prop :=
  ∀ (s : State) (a b : Operand), live s a = true → live s b = true →
    (((cell s a).sgn = .neg ∨ (cell s b).sgn = .neg ∨ 2 ^ s.build.H ≤ (cell s a).mag ∨
        2 ^ s.build.H ≤ (cell s b).mag) →
      exec (.xeuc a b) s = .fault .euclidOperand ∧ exec (.invmod a b) s = .fault .euclidOperand) ∧
    ((cell s a).sgn = .pos → (cell s b).sgn = .pos → (cell s a).mag < 2 ^ s.build.H →
      (cell s b).mag < 2 ^ s.build.H → Nat.gcd (cell s a).mag (cell s b).mag ≠ 1 →
      exec (.xeuc a b) s = .fault .notCoprime ∧ exec (.invmod a b) s = .fault .notCoprime)

/-- R192: under its preconditions `INVMOD` leaves the inverse `i` of `x` modulo `m`: `0 ≤ i < m` and
`x·i mod m = 1 mod m`, with the modulus cell unwritten; a zero modulus stops it (U3). -/
def Obligations.InvmodInverts : Prop :=
  ∀ (s : State) (a b : Operand), live s a = true → live s b = true →
    (cell s a).sgn = .pos → (cell s b).sgn = .pos →
    (cell s a).mag < 2 ^ s.build.H → (cell s b).mag < 2 ^ s.build.H → Nat.gcd (cell s a).mag (cell s b).mag = 1 →
    encode (.invmod a b) = 0x61#8 ++ a.spec ++ b.spec ++ 0#8 ∧
    ((cell s b).mag = 0 → exec (.invmod a b) s = .fault .zeroModulus) ∧
    ((cell s b).mag ≠ 0 → ∃ t, exec (.invmod a b) s = .next t ∧ OnlyCells [a] s t ∧ (cell t a).sgn = .pos ∧
      (cell t a).mag < (cell s b).mag ∧
      (cell s a).mag * (cell t a).mag % (cell s b).mag = 1 % (cell s b).mag)

/-! ## The primality tester (46_primality.md) -/

/-- R200, R201: the verdict as a function of the draws: for `n ≥ 2`, `n − 1 = d·2^e` with `d` odd, `T` is 1 exactly when
all drawn witnesses pass; `n = 1` is rejected with no draw; the draws stop at the first witness that fails. That the
exponent `d` fits `W` bits follows from `n ≤ 2 ^ H`. -/
def Obligations.IsprimeVerdictOfDraws : Prop :=
  ∀ (s : State) (a : Operand) (acc : Imm16), live s a = true → (cell s a).sgn = .pos → 1 ≤ (cell s a).mag →
    (cell s a).mag ≤ 2 ^ s.build.H →
    encode (.isprime a acc) = 0x62#8 ++ a.spec ++ acc ∧
    ∃ t, exec (.isprime a acc) s = .next t ∧ Frame [] s t ∧ KeepsDout s t ∧ KeepsWritten [] s t ∧
      ((cell s a).mag = 1 → t.status.t = false ∧ t.rng = s.rng) ∧
      ((cell s a).mag ≠ 1 → ∀ d e : Nat, d % 2 = 1 → (cell s a).mag - 1 = d * 2 ^ e →
        (t.status.t = true ↔
          ∀ w ∈ drawList 1 ((cell s a).mag - 1) acc.toNat s.rng, Passing (cell s a).mag e d w) ∧
        (∀ k ≤ acc.toNat,
          (∀ w ∈ drawList 1 ((cell s a).mag - 1) k s.rng, Passing (cell s a).mag e d w) →
          (k = acc.toNat → t.rng = rngAfter 1 ((cell s a).mag - 1) k s.rng) ∧
          (k < acc.toNat →
            ¬ Passing (cell s a).mag e d ((rngAfter 1 ((cell s a).mag - 1) k s.rng).draw 1 ((cell s a).mag - 1)).1 →
            t.rng = rngAfter 1 ((cell s a).mag - 1) (k + 1) s.rng)))

/-- R202 ("`isPrime` never rejects a true prime (zero false negatives)"), R200 corner case 7: on a prime the verdict is 1
whatever is drawn and however many rounds are run. -/
def Obligations.IsprimeNeverRejectsPrimes : Prop :=
  ∀ (s : State) (a : Operand) (acc : Imm16), live s a = true → (cell s a).sgn = .pos →
    (cell s a).mag ≤ 2 ^ s.build.H → Nat.Prime (cell s a).mag →
    ∃ t, exec (.isprime a acc) s = .next t ∧ t.status.t = true

/-- R200, R225 U7: a negative number, 0 and a number above `2 ^ H` stop `ISPRIME`. -/
def Obligations.IsprimeStopsOutsidePreconditions : Prop :=
  ∀ (s : State) (a : Operand) (acc : Imm16), live s a = true →
    ((cell s a).sgn = .neg ∨ (cell s a).mag = 0 ∨ 2 ^ s.build.H < (cell s a).mag) →
    exec (.isprime a acc) s = .fault .primeOperand

/-! ## System (48_system.md) and host macros (30_encoding.md) -/

/-- R210: `CLRST` clears the three sticky flags and nothing else. -/
def Obligations.ClrstClearsStickyFlags : Prop :=
  ∀ s : State, encode .clrst = 0x70000000#32 ∧
    exec .clrst s = .next { s with status := ⟨s.status.t, false, false, false⟩ }

/-- R99: the host macro `LOADV a, v` leaves the constant `v` in cell `a`, written, and every other cell as it was. The
order in which it visits the blocks is the model's (log entry 25, DESIGN CHOICE); the statement says nothing of `DIN`. -/
def Obligations.LoadvLoadsConstant : Prop :=
  ∀ (s : State) (a : Operand) (v : Value) (rest : List HostAction), s.build.Wf → a.wf s.build = true →
    live s a = true → v.mag < 2 ^ s.build.W → s.actions = loadV s.build a v ++ rest →
    ∃ t : State, Host.Core.run Sys2Proof.core (loadV s.build a v).length s = .next t ∧ t.actions = rest ∧
      cell t a = v ∧ wasWritten t .whole a = true ∧ (∀ o, o ≠ a → cell t o = cell s o)

/-- R99: the host macro `READV a` returns the blocks of cell `a` in order and then a `STATUS` word whose bit 0 is the
sign, and changes no cell. -/
def Obligations.ReadvReturnsValue : Prop :=
  ∀ (s : State) (a : Operand) (rest : List HostAction), s.build.Wf → a.wf s.build = true → live s a = true →
    s.actions = readV s.build a ++ rest →
    ∃ (t : State) (st : Word), Host.Core.run Sys2Proof.core (readV s.build a).length s = .next t ∧ t.actions = rest ∧
      t.replies = st :: ((List.range s.build.N).reverse.map
        fun j => BitVec.ofNat 32 (blk s.build (cell s a) j)) ++ s.replies ∧
      st.getLsbD 0 = decide ((cell s a).sgn = .neg) ∧ (∀ o, cell t o = cell s o)
end

