-- ==== Sys2Proof/Laws/Decode.lean ====
section
/-! SUPPORT. What the fields of a command word and the operand decoder do, said once: the fields of a built word, a word
from its fields, and specifiers and operands as each other's inverses. -/

namespace Sys2Proof

theorem mul_two_pow_or (x y n : Nat) (h : y < 2 ^ n) : x * 2 ^ n ||| y = x * 2 ^ n + y := by
  rw [← Nat.shiftLeft_eq, Nat.shiftLeft_add_eq_or_of_lt h]

theorem wordABC_toNat (op a b c : Byte) :
    (wordABC op a b c).toNat = op.toNat * 2 ^ 24 + a.toNat * 2 ^ 16 + b.toNat * 2 ^ 8 + c.toNat := by
  have h0 := a.isLt
  have h1 := b.isLt
  have h2 := c.isLt
  simp only [wordABC, BitVec.toNat_append, Nat.shiftLeft_eq, mul_two_pow_or _ _ 8 h0, mul_two_pow_or _ _ 8 h1,
    mul_two_pow_or _ _ 8 h2]
  omega

theorem wordAI_toNat (op a : Byte) (n : Imm16) :
    (wordAI op a n).toNat = op.toNat * 2 ^ 24 + a.toNat * 2 ^ 16 + n.toNat := by
  have h0 := a.isLt
  have h1 := n.isLt
  simp only [wordAI, BitVec.toNat_append, Nat.shiftLeft_eq, mul_two_pow_or _ _ 8 h0, mul_two_pow_or _ _ 16 h1]
  omega

theorem opField_toNat (w : Word) : (opField w).toNat = w.toNat / 2 ^ 24 := by
  have := w.isLt
  simp [opField, Nat.shiftRight_eq_div_pow]
  omega
theorem aField_toNat (w : Word) : (aField w).toNat = w.toNat / 2 ^ 16 % 2 ^ 8 := by
  simp [aField, Nat.shiftRight_eq_div_pow]
theorem bField_toNat (w : Word) : (bField w).toNat = w.toNat / 2 ^ 8 % 2 ^ 8 := by
  simp [bField, Nat.shiftRight_eq_div_pow]
theorem cField_toNat (w : Word) : (cField w).toNat = w.toNat % 2 ^ 8 := by
  simp [cField]
theorem immField_toNat (w : Word) : (immField w).toNat = w.toNat % 2 ^ 16 := by
  simp [immField]

/-- Every word is the word of its four fields (R80). -/
theorem wordABC_fields (w : Word) : wordABC (opField w) (aField w) (bField w) (cField w) = w := by
  have := w.isLt
  apply BitVec.eq_of_toNat_eq
  simp only [opField_toNat, aField_toNat, bField_toNat, cField_toNat, wordABC_toNat]
  omega

/-- Every word is the word of its `op`, `a` and `imm16` (R80). -/
theorem wordAI_fields (w : Word) : wordAI (opField w) (aField w) (immField w) = w := by
  have := w.isLt
  apply BitVec.eq_of_toNat_eq
  simp only [opField_toNat, aField_toNat, immField_toNat, wordAI_toNat]
  omega

/-- The fields of a word built from four. -/
theorem fields_wordABC (op a b c : Byte) : opField (wordABC op a b c) = op ∧ aField (wordABC op a b c) = a ∧
    bField (wordABC op a b c) = b ∧ cField (wordABC op a b c) = c := by
  have h3 := op.isLt
  have h0 := a.isLt
  have h1 := b.isLt
  have h2 := c.isLt
  refine ⟨?_, ?_, ?_, ?_⟩ <;> apply BitVec.eq_of_toNat_eq <;>
    simp only [opField_toNat, aField_toNat, bField_toNat, cField_toNat, wordABC_toNat] <;> omega

/-- The fields of a word built from an opcode, a specifier and an immediate. -/
theorem fields_wordAI (op a : Byte) (n : Imm16) : opField (wordAI op a n) = op ∧ aField (wordAI op a n) = a ∧
    immField (wordAI op a n) = n := by
  have h3 := op.isLt
  have h0 := a.isLt
  have h1 := n.isLt
  refine ⟨?_, ?_, ?_⟩ <;> apply BitVec.eq_of_toNat_eq <;>
    simp only [opField_toNat, aField_toNat, immField_toNat, wordAI_toNat] <;> omega

/-- The specifier of an operand the build has decodes to it (R84). -/
theorem decodeOperand_spec {b : Build} {o : Operand} (h : o.wf b = true) : decodeOperand b o.spec = some o := by
  cases o with
  | g r =>
    have : r.val % 256 = r.val := by omega
    simp [decodeOperand, Operand.spec, this]
  | s k =>
    have h2 : (128 + k.val) % 256 = 128 + k.val := by omega
    have h3 : ¬ 128 + k.val < 16 := by omega
    simp [decodeOperand, Operand.spec, h2, h3, h]

/-- A decoded operand is one the build has, and its specifier is the byte (R84). -/
theorem spec_of_decodeOperand {b : Build} {x : Byte} {o : Operand} (h : decodeOperand b x = some o) :
    o.wf b = true ∧ o.spec = x := by
  unfold decodeOperand at h
  split at h
  · simp only [Option.some.injEq] at h
    subst h
    exact ⟨rfl, BitVec.eq_of_toNat_eq (by simp [Operand.spec])⟩
  · split at h
    · cases h
    · simp only at h
      split at h
      · simp only [Option.some.injEq] at h
        subst h
        exact ⟨‹_›, BitVec.eq_of_toNat_eq (by simp [Operand.spec]; omega)⟩
      · cases h

end Sys2Proof
end

