-- ==== Sys2Proof/Laws/State.lean ====
section
/-! SUPPORT. One lemma per field per update of the state, so that no later proof unfolds an update: the fields an update
leaves alone, then what it does to the field it changes. -/

namespace Sys2Proof.Machine

@[simp] theorem raise_ill_build (s : State) : (raise .ill s).build = s.build := rfl
@[simp] theorem raise_ill_regs (s : State) : (raise .ill s).regs = s.regs := rfl
@[simp] theorem raise_ill_written (s : State) : (raise .ill s).written = s.written := rfl
@[simp] theorem raise_ill_slots (s : State) : (raise .ill s).slots = s.slots := rfl
@[simp] theorem raise_ill_atop (s : State) : (raise .ill s).atop = s.atop := rfl
@[simp] theorem raise_ill_marks (s : State) : (raise .ill s).marks = s.marks := rfl
@[simp] theorem raise_ill_res (s : State) : (raise .ill s).res = s.res := rfl
@[simp] theorem raise_ill_din (s : State) : (raise .ill s).din = s.din := rfl
@[simp] theorem raise_ill_dout (s : State) : (raise .ill s).dout = s.dout := rfl
@[simp] theorem raise_ill_rng (s : State) : (raise .ill s).rng = s.rng := rfl
@[simp] theorem raise_ill_record (s : State) : (raise .ill s).record = s.record := rfl
@[simp] theorem raise_ill_actions (s : State) : (raise .ill s).actions = s.actions := rfl
@[simp] theorem raise_ill_replies (s : State) : (raise .ill s).replies = s.replies := rfl

@[simp] theorem raise_aerr_build (s : State) : (raise .aerr s).build = s.build := rfl
@[simp] theorem raise_aerr_regs (s : State) : (raise .aerr s).regs = s.regs := rfl
@[simp] theorem raise_aerr_written (s : State) : (raise .aerr s).written = s.written := rfl
@[simp] theorem raise_aerr_slots (s : State) : (raise .aerr s).slots = s.slots := rfl
@[simp] theorem raise_aerr_atop (s : State) : (raise .aerr s).atop = s.atop := rfl
@[simp] theorem raise_aerr_marks (s : State) : (raise .aerr s).marks = s.marks := rfl
@[simp] theorem raise_aerr_res (s : State) : (raise .aerr s).res = s.res := rfl
@[simp] theorem raise_aerr_din (s : State) : (raise .aerr s).din = s.din := rfl
@[simp] theorem raise_aerr_dout (s : State) : (raise .aerr s).dout = s.dout := rfl
@[simp] theorem raise_aerr_rng (s : State) : (raise .aerr s).rng = s.rng := rfl
@[simp] theorem raise_aerr_record (s : State) : (raise .aerr s).record = s.record := rfl
@[simp] theorem raise_aerr_actions (s : State) : (raise .aerr s).actions = s.actions := rfl
@[simp] theorem raise_aerr_replies (s : State) : (raise .aerr s).replies = s.replies := rfl

@[simp] theorem raise_afull_build (s : State) : (raise .afull s).build = s.build := rfl
@[simp] theorem raise_afull_regs (s : State) : (raise .afull s).regs = s.regs := rfl
@[simp] theorem raise_afull_written (s : State) : (raise .afull s).written = s.written := rfl
@[simp] theorem raise_afull_slots (s : State) : (raise .afull s).slots = s.slots := rfl
@[simp] theorem raise_afull_atop (s : State) : (raise .afull s).atop = s.atop := rfl
@[simp] theorem raise_afull_marks (s : State) : (raise .afull s).marks = s.marks := rfl
@[simp] theorem raise_afull_res (s : State) : (raise .afull s).res = s.res := rfl
@[simp] theorem raise_afull_din (s : State) : (raise .afull s).din = s.din := rfl
@[simp] theorem raise_afull_dout (s : State) : (raise .afull s).dout = s.dout := rfl
@[simp] theorem raise_afull_rng (s : State) : (raise .afull s).rng = s.rng := rfl
@[simp] theorem raise_afull_actions (s : State) : (raise .afull s).actions = s.actions := rfl
@[simp] theorem raise_afull_replies (s : State) : (raise .afull s).replies = s.replies := rfl

@[simp] theorem setT_build (s : State) (v : Bool) : (setT v s).build = s.build := rfl
@[simp] theorem setT_regs (s : State) (v : Bool) : (setT v s).regs = s.regs := rfl
@[simp] theorem setT_written (s : State) (v : Bool) : (setT v s).written = s.written := rfl
@[simp] theorem setT_slots (s : State) (v : Bool) : (setT v s).slots = s.slots := rfl
@[simp] theorem setT_atop (s : State) (v : Bool) : (setT v s).atop = s.atop := rfl
@[simp] theorem setT_marks (s : State) (v : Bool) : (setT v s).marks = s.marks := rfl
@[simp] theorem setT_res (s : State) (v : Bool) : (setT v s).res = s.res := rfl
@[simp] theorem setT_din (s : State) (v : Bool) : (setT v s).din = s.din := rfl
@[simp] theorem setT_dout (s : State) (v : Bool) : (setT v s).dout = s.dout := rfl
@[simp] theorem setT_rng (s : State) (v : Bool) : (setT v s).rng = s.rng := rfl
@[simp] theorem setT_record (s : State) (v : Bool) : (setT v s).record = s.record := rfl
@[simp] theorem setT_actions (s : State) (v : Bool) : (setT v s).actions = s.actions := rfl
@[simp] theorem setT_replies (s : State) (v : Bool) : (setT v s).replies = s.replies := rfl

@[simp] theorem clearSticky_build (s : State) : (clearSticky s).build = s.build := rfl
@[simp] theorem clearSticky_regs (s : State) : (clearSticky s).regs = s.regs := rfl
@[simp] theorem clearSticky_written (s : State) : (clearSticky s).written = s.written := rfl
@[simp] theorem clearSticky_slots (s : State) : (clearSticky s).slots = s.slots := rfl
@[simp] theorem clearSticky_atop (s : State) : (clearSticky s).atop = s.atop := rfl
@[simp] theorem clearSticky_marks (s : State) : (clearSticky s).marks = s.marks := rfl
@[simp] theorem clearSticky_res (s : State) : (clearSticky s).res = s.res := rfl
@[simp] theorem clearSticky_din (s : State) : (clearSticky s).din = s.din := rfl
@[simp] theorem clearSticky_dout (s : State) : (clearSticky s).dout = s.dout := rfl
@[simp] theorem clearSticky_rng (s : State) : (clearSticky s).rng = s.rng := rfl
@[simp] theorem clearSticky_record (s : State) : (clearSticky s).record = s.record := rfl
@[simp] theorem clearSticky_actions (s : State) : (clearSticky s).actions = s.actions := rfl
@[simp] theorem clearSticky_replies (s : State) : (clearSticky s).replies = s.replies := rfl

@[simp] theorem setCell_build (s : State) (o : Operand) (v : Value) : (setCell s o v).build = s.build := by cases o <;> rfl
@[simp] theorem setCell_written (s : State) (o : Operand) (v : Value) : (setCell s o v).written = s.written := by cases o <;> rfl
@[simp] theorem setCell_atop (s : State) (o : Operand) (v : Value) : (setCell s o v).atop = s.atop := by cases o <;> rfl
@[simp] theorem setCell_marks (s : State) (o : Operand) (v : Value) : (setCell s o v).marks = s.marks := by cases o <;> rfl
@[simp] theorem setCell_status (s : State) (o : Operand) (v : Value) : (setCell s o v).status = s.status := by cases o <;> rfl
@[simp] theorem setCell_res (s : State) (o : Operand) (v : Value) : (setCell s o v).res = s.res := by cases o <;> rfl
@[simp] theorem setCell_din (s : State) (o : Operand) (v : Value) : (setCell s o v).din = s.din := by cases o <;> rfl
@[simp] theorem setCell_dout (s : State) (o : Operand) (v : Value) : (setCell s o v).dout = s.dout := by cases o <;> rfl
@[simp] theorem setCell_rng (s : State) (o : Operand) (v : Value) : (setCell s o v).rng = s.rng := by cases o <;> rfl
@[simp] theorem setCell_record (s : State) (o : Operand) (v : Value) : (setCell s o v).record = s.record := by cases o <;> rfl
@[simp] theorem setCell_actions (s : State) (o : Operand) (v : Value) : (setCell s o v).actions = s.actions := by cases o <;> rfl
@[simp] theorem setCell_replies (s : State) (o : Operand) (v : Value) : (setCell s o v).replies = s.replies := by cases o <;> rfl

@[simp] theorem noteRead_build (s : State) (p : Part) (o : Operand) : (noteRead s p o).build = s.build := rfl
@[simp] theorem noteRead_regs (s : State) (p : Part) (o : Operand) : (noteRead s p o).regs = s.regs := rfl
@[simp] theorem noteRead_written (s : State) (p : Part) (o : Operand) : (noteRead s p o).written = s.written := rfl
@[simp] theorem noteRead_slots (s : State) (p : Part) (o : Operand) : (noteRead s p o).slots = s.slots := rfl
@[simp] theorem noteRead_atop (s : State) (p : Part) (o : Operand) : (noteRead s p o).atop = s.atop := rfl
@[simp] theorem noteRead_marks (s : State) (p : Part) (o : Operand) : (noteRead s p o).marks = s.marks := rfl
@[simp] theorem noteRead_status (s : State) (p : Part) (o : Operand) : (noteRead s p o).status = s.status := rfl
@[simp] theorem noteRead_res (s : State) (p : Part) (o : Operand) : (noteRead s p o).res = s.res := rfl
@[simp] theorem noteRead_din (s : State) (p : Part) (o : Operand) : (noteRead s p o).din = s.din := rfl
@[simp] theorem noteRead_dout (s : State) (p : Part) (o : Operand) : (noteRead s p o).dout = s.dout := rfl
@[simp] theorem noteRead_rng (s : State) (p : Part) (o : Operand) : (noteRead s p o).rng = s.rng := rfl
@[simp] theorem noteRead_actions (s : State) (p : Part) (o : Operand) : (noteRead s p o).actions = s.actions := rfl
@[simp] theorem noteRead_replies (s : State) (p : Part) (o : Operand) : (noteRead s p o).replies = s.replies := rfl

@[simp] theorem noteWhole_build (s : State) (o : Operand) : (noteWhole s o).build = s.build := by cases o <;> rfl
@[simp] theorem noteWhole_regs (s : State) (o : Operand) : (noteWhole s o).regs = s.regs := by cases o <;> rfl
@[simp] theorem noteWhole_slots (s : State) (o : Operand) : (noteWhole s o).slots = s.slots := by cases o <;> rfl
@[simp] theorem noteWhole_atop (s : State) (o : Operand) : (noteWhole s o).atop = s.atop := by cases o <;> rfl
@[simp] theorem noteWhole_marks (s : State) (o : Operand) : (noteWhole s o).marks = s.marks := by cases o <;> rfl
@[simp] theorem noteWhole_status (s : State) (o : Operand) : (noteWhole s o).status = s.status := by cases o <;> rfl
@[simp] theorem noteWhole_res (s : State) (o : Operand) : (noteWhole s o).res = s.res := by cases o <;> rfl
@[simp] theorem noteWhole_din (s : State) (o : Operand) : (noteWhole s o).din = s.din := by cases o <;> rfl
@[simp] theorem noteWhole_dout (s : State) (o : Operand) : (noteWhole s o).dout = s.dout := by cases o <;> rfl
@[simp] theorem noteWhole_rng (s : State) (o : Operand) : (noteWhole s o).rng = s.rng := by cases o <;> rfl
@[simp] theorem noteWhole_record (s : State) (o : Operand) : (noteWhole s o).record = s.record := by cases o <;> rfl
@[simp] theorem noteWhole_actions (s : State) (o : Operand) : (noteWhole s o).actions = s.actions := by cases o <;> rfl
@[simp] theorem noteWhole_replies (s : State) (o : Operand) : (noteWhole s o).replies = s.replies := by cases o <;> rfl

@[simp] theorem noteBlock_build (s : State) (o : Operand) (j : Nat) : (noteBlock s o j).build = s.build := by cases o <;> rfl
@[simp] theorem noteBlock_regs (s : State) (o : Operand) (j : Nat) : (noteBlock s o j).regs = s.regs := by cases o <;> rfl
@[simp] theorem noteBlock_slots (s : State) (o : Operand) (j : Nat) : (noteBlock s o j).slots = s.slots := by cases o <;> rfl
@[simp] theorem noteBlock_atop (s : State) (o : Operand) (j : Nat) : (noteBlock s o j).atop = s.atop := by cases o <;> rfl
@[simp] theorem noteBlock_marks (s : State) (o : Operand) (j : Nat) : (noteBlock s o j).marks = s.marks := by cases o <;> rfl
@[simp] theorem noteBlock_status (s : State) (o : Operand) (j : Nat) : (noteBlock s o j).status = s.status := by cases o <;> rfl
@[simp] theorem noteBlock_res (s : State) (o : Operand) (j : Nat) : (noteBlock s o j).res = s.res := by cases o <;> rfl
@[simp] theorem noteBlock_din (s : State) (o : Operand) (j : Nat) : (noteBlock s o j).din = s.din := by cases o <;> rfl
@[simp] theorem noteBlock_dout (s : State) (o : Operand) (j : Nat) : (noteBlock s o j).dout = s.dout := by cases o <;> rfl
@[simp] theorem noteBlock_rng (s : State) (o : Operand) (j : Nat) : (noteBlock s o j).rng = s.rng := by cases o <;> rfl
@[simp] theorem noteBlock_record (s : State) (o : Operand) (j : Nat) : (noteBlock s o j).record = s.record := by cases o <;> rfl
@[simp] theorem noteBlock_actions (s : State) (o : Operand) (j : Nat) : (noteBlock s o j).actions = s.actions := by cases o <;> rfl
@[simp] theorem noteBlock_replies (s : State) (o : Operand) (j : Nat) : (noteBlock s o j).replies = s.replies := by cases o <;> rfl

@[simp] theorem noteSign_build (s : State) (o : Operand) : (noteSign s o).build = s.build := by cases o <;> rfl
@[simp] theorem noteSign_regs (s : State) (o : Operand) : (noteSign s o).regs = s.regs := by cases o <;> rfl
@[simp] theorem noteSign_slots (s : State) (o : Operand) : (noteSign s o).slots = s.slots := by cases o <;> rfl
@[simp] theorem noteSign_atop (s : State) (o : Operand) : (noteSign s o).atop = s.atop := by cases o <;> rfl
@[simp] theorem noteSign_marks (s : State) (o : Operand) : (noteSign s o).marks = s.marks := by cases o <;> rfl
@[simp] theorem noteSign_status (s : State) (o : Operand) : (noteSign s o).status = s.status := by cases o <;> rfl
@[simp] theorem noteSign_res (s : State) (o : Operand) : (noteSign s o).res = s.res := by cases o <;> rfl
@[simp] theorem noteSign_din (s : State) (o : Operand) : (noteSign s o).din = s.din := by cases o <;> rfl
@[simp] theorem noteSign_dout (s : State) (o : Operand) : (noteSign s o).dout = s.dout := by cases o <;> rfl
@[simp] theorem noteSign_rng (s : State) (o : Operand) : (noteSign s o).rng = s.rng := by cases o <;> rfl
@[simp] theorem noteSign_record (s : State) (o : Operand) : (noteSign s o).record = s.record := by cases o <;> rfl
@[simp] theorem noteSign_actions (s : State) (o : Operand) : (noteSign s o).actions = s.actions := by cases o <;> rfl
@[simp] theorem noteSign_replies (s : State) (o : Operand) : (noteSign s o).replies = s.replies := by cases o <;> rfl

@[simp] theorem csrRead_build (s : State) (n : Fin 8) : (csrRead n s).build = s.build := rfl
@[simp] theorem csrRead_regs (s : State) (n : Fin 8) : (csrRead n s).regs = s.regs := rfl
@[simp] theorem csrRead_written (s : State) (n : Fin 8) : (csrRead n s).written = s.written := rfl
@[simp] theorem csrRead_slots (s : State) (n : Fin 8) : (csrRead n s).slots = s.slots := rfl
@[simp] theorem csrRead_atop (s : State) (n : Fin 8) : (csrRead n s).atop = s.atop := rfl
@[simp] theorem csrRead_marks (s : State) (n : Fin 8) : (csrRead n s).marks = s.marks := rfl
@[simp] theorem csrRead_status (s : State) (n : Fin 8) : (csrRead n s).status = s.status := rfl
@[simp] theorem csrRead_res (s : State) (n : Fin 8) : (csrRead n s).res = s.res := rfl
@[simp] theorem csrRead_din (s : State) (n : Fin 8) : (csrRead n s).din = s.din := rfl
@[simp] theorem csrRead_dout (s : State) (n : Fin 8) : (csrRead n s).dout = s.dout := rfl
@[simp] theorem csrRead_rng (s : State) (n : Fin 8) : (csrRead n s).rng = s.rng := rfl
@[simp] theorem csrRead_record (s : State) (n : Fin 8) : (csrRead n s).record = s.record := rfl
@[simp] theorem csrRead_actions (s : State) (n : Fin 8) : (csrRead n s).actions = s.actions := rfl

@[simp] theorem writeDin_build (s : State) (w : Word) : (writeDin w s).build = s.build := rfl
@[simp] theorem writeDin_regs (s : State) (w : Word) : (writeDin w s).regs = s.regs := rfl
@[simp] theorem writeDin_written (s : State) (w : Word) : (writeDin w s).written = s.written := rfl
@[simp] theorem writeDin_slots (s : State) (w : Word) : (writeDin w s).slots = s.slots := rfl
@[simp] theorem writeDin_atop (s : State) (w : Word) : (writeDin w s).atop = s.atop := rfl
@[simp] theorem writeDin_marks (s : State) (w : Word) : (writeDin w s).marks = s.marks := rfl
@[simp] theorem writeDin_status (s : State) (w : Word) : (writeDin w s).status = s.status := rfl
@[simp] theorem writeDin_res (s : State) (w : Word) : (writeDin w s).res = s.res := rfl
@[simp] theorem writeDin_dout (s : State) (w : Word) : (writeDin w s).dout = s.dout := rfl
@[simp] theorem writeDin_rng (s : State) (w : Word) : (writeDin w s).rng = s.rng := rfl
@[simp] theorem writeDin_record (s : State) (w : Word) : (writeDin w s).record = s.record := rfl
@[simp] theorem writeDin_actions (s : State) (w : Word) : (writeDin w s).actions = s.actions := rfl
@[simp] theorem writeDin_replies (s : State) (w : Word) : (writeDin w s).replies = s.replies := rfl

@[simp] theorem raise_ill_status (s : State) : (raise .ill s).status = { s.status with ill := true } := rfl
@[simp] theorem raise_aerr_status (s : State) : (raise .aerr s).status = { s.status with aerr := true } := rfl
@[simp] theorem raise_afull_status (s : State) : (raise .afull s).status = { s.status with afull := true } := rfl
@[simp] theorem raise_afull_record (s : State) : (raise .afull s).record = { s.record with afull := true } := rfl
@[simp] theorem setT_status (s : State) (v : Bool) : (setT v s).status = { s.status with t := v } := rfl
@[simp] theorem clearSticky_status (s : State) : (clearSticky s).status = ⟨s.status.t, false, false, false⟩ := rfl
@[simp] theorem setCell_regs_g (s : State) (r : Fin 16) (v : Value) :
    (setCell s (.g r) v).regs = s.regs.set r v := rfl
@[simp] theorem setCell_regs_s (s : State) (k : Fin 128) (v : Value) : (setCell s (.s k) v).regs = s.regs := rfl
@[simp] theorem setCell_slots_g (s : State) (r : Fin 16) (v : Value) : (setCell s (.g r) v).slots = s.slots := rfl
@[simp] theorem setCell_slots_s (s : State) (k : Fin 128) (v : Value) :
    (setCell s (.s k) v).slots = slotPut s.slots k v := rfl
@[simp] theorem noteRead_record (s : State) (p : Part) (o : Operand) :
    (noteRead s p o).record = { s.record with unwritten := s.record.unwritten || !wasWritten s p o } := rfl
@[simp] theorem csrRead_replies (s : State) (n : Fin 8) : (csrRead n s).replies = csrValue s n :: s.replies := rfl
@[simp] theorem writeDin_din (s : State) (w : Word) :
    (writeDin w s).din = BitVec.ofNat 32 (w.toNat % 2 ^ s.build.B) := rfl

end Sys2Proof.Machine
end

