-- ==== Sys2Proof/Laws/Ops.lean ====
section
/-! SUPPORT. What each shared operation can do, said once: slot lists, reads and writes of cells, liveness, the reads
every command makes, and the draws of the random-bit source. -/

namespace Sys2Proof.Machine

/-! Slot lists. -/

@[simp] theorem slotAt_nil (k : Nat) : slotAt [] k = .zero := by simp [slotAt]
@[simp] theorem slotAt_cons_zero (v : Value) (l : List Value) : slotAt (v :: l) 0 = v := rfl
@[simp] theorem slotAt_cons_succ (v : Value) (l : List Value) (k : Nat) : slotAt (v :: l) (k + 1) = slotAt l k := by
  simp [slotAt]

/-- A read after a write of a slot: the value written there, what was there elsewhere. -/
theorem slotAt_slotPut (l : List Value) (k j : Nat) (v : Value) :
    slotAt (slotPut l k v) j = if j = k then v else slotAt l j := by
  induction l generalizing k j with
  | nil =>
    induction k generalizing j with
    | zero => cases j <;> simp [slotPut]
    | succ k ih => cases j <;> simp [slotPut, ih]
  | cons x l ih => cases k <;> cases j <;> simp [slotPut, ih]

/-- Writing a slot the list holds, or the next one, keeps the list without holes. -/
theorem length_slotPut (l : List Value) (k : Nat) (v : Value) :
    (slotPut l k v).length = max l.length (k + 1) := by
  induction l generalizing k with
  | nil =>
    induction k with
    | zero => rfl
    | succ k ih => simp [slotPut, ih]
  | cons x l ih => cases k <;> simp [slotPut, ih]

/-- Every value of a written slot list is the one written, one it held, or `ZERO`. -/
theorem mem_slotPut {l : List Value} {k : Nat} {v w : Value} (h : w ∈ slotPut l k v) :
    w = v ∨ w ∈ l ∨ w = .zero := by
  induction l generalizing k with
  | nil =>
    induction k with
    | zero => simp_all [slotPut]
    | succ k ih =>
      simp only [slotPut, List.mem_cons] at h
      exact h.elim (fun h => .inr (.inr h)) ih
  | cons x l ih =>
    cases k with
    | zero => simp only [slotPut, List.mem_cons] at h ⊢; tauto
    | succ k =>
      simp only [slotPut, List.mem_cons] at h ⊢
      exact h.elim (by tauto) fun h => (ih h).imp id (Or.imp .inr id)

/-- Dropping the slots from `m` upward leaves those below `m`. -/
theorem slotAt_take {l : List Value} {m k : Nat} (h : k < m) : slotAt (l.take m) k = slotAt l k := by
  simp [slotAt, List.getD_eq_getElem?_getD, h]

/-! Cells. -/

@[simp] theorem cell_setCell_same (s : State) (o : Operand) (v : Value) : cell (setCell s o v) o = v := by
  cases o <;> simp [cell, slotAt_slotPut]

theorem cell_setCell_ne (s : State) {o p : Operand} (v : Value) (h : p ≠ o) : cell (setCell s o v) p = cell s p := by
  cases o <;> cases p <;> simp_all [cell, slotAt_slotPut, Fin.ext_iff, eq_comm]

theorem cell_congr {s t : State} (hr : t.regs = s.regs) (hs : t.slots = s.slots) : cell t = cell s := by
  funext o; cases o <;> simp [cell, hr, hs]

@[simp] theorem cell_noteRead (s : State) (p : Part) (o : Operand) : cell (noteRead s p o) = cell s :=
  cell_congr rfl rfl
@[simp] theorem cell_noteWhole (s : State) (o : Operand) : cell (noteWhole s o) = cell s := by
  apply cell_congr <;> simp
@[simp] theorem cell_noteBlock (s : State) (o : Operand) (j : Nat) : cell (noteBlock s o j) = cell s := by
  apply cell_congr <;> simp
@[simp] theorem cell_noteSign (s : State) (o : Operand) : cell (noteSign s o) = cell s := by
  apply cell_congr <;> simp
@[simp] theorem cell_setT (s : State) (v : Bool) : cell (setT v s) = cell s := cell_congr rfl rfl

theorem live_congr {s t : State} (h : t.atop = s.atop) : live t = live s := by
  funext o; cases o <;> simp [live, h]

@[simp] theorem live_noteRead (s : State) (p : Part) (o : Operand) : live (noteRead s p o) = live s :=
  live_congr rfl
@[simp] theorem live_setCell (s : State) (o : Operand) (v : Value) : live (setCell s o v) = live s :=
  live_congr (by simp)

theorem wasWritten_congr {s t : State} (h : t.written = s.written) : wasWritten t = wasWritten s := by
  funext p o; cases o <;> simp [wasWritten, h]

@[simp] theorem wasWritten_noteRead (s : State) (p : Part) (o : Operand) : wasWritten (noteRead s p o) = wasWritten s :=
  wasWritten_congr rfl
@[simp] theorem wasWritten_setCell (s : State) (o : Operand) (v : Value) : wasWritten (setCell s o v) = wasWritten s :=
  wasWritten_congr (by simp)

/-! The reads of a command. -/

@[simp] theorem withLive_of_live {s : State} {o : Operand} (h : live s o = true) (k : Out) : withLive s o k = k := by
  simp [withLive, h]

theorem withLive_of_dead {s : State} {o : Operand} (h : live s o = false) (k : Out) :
    withLive s o k = .fault (deadFault o) := by
  simp [withLive, h]

@[simp] theorem withCell_of_live {s : State} {o : Operand} (h : live s o = true) (p : Part) (k : Value → State → Out) :
    withCell s p o k = k (cell s o) (noteRead s p o) := by
  simp [withCell, h]

/-- If a destination check answers a next state, the operand is live and the rest answers it. -/
theorem withLive_next {s t : State} {o : Operand} {k : Out} (h : withLive s o k = .next t) :
    live s o = true ∧ k = .next t := by
  unfold withLive at h
  split at h
  · exact ⟨‹_›, h⟩
  · cases h

/-- If a read answers a next state, the operand is live and the rest, given the cell's value and the recorded read,
answers it. -/
theorem withCell_next {s t : State} {p : Part} {o : Operand} {k : Value → State → Out}
    (h : withCell s p o k = .next t) : live s o = true ∧ k (cell s o) (noteRead s p o) = .next t :=
  withLive_next h

/-! Frames. -/

theorem Frame.refl (ds : List Operand) (s : State) : Frame ds s s where
  regs _ _ := rfl
  slots _ _ := rfl
  atop := rfl
  marks := rfl
  res := rfl
  din := rfl
  build := rfl
  aerr := rfl
  ill := rfl
  afull := rfl
  recordAfull := rfl
  actions := rfl
  replies := rfl

/-- What a frame says of the cells a command can name. -/
theorem Frame.cell {ds : List Operand} {s t : State} (h : Frame ds s t) {o : Operand} (ho : o ∉ ds) :
    cell t o = cell s o := by
  cases o with
  | g r => exact h.regs r ho
  | s k => exact h.slots k fun j hj hk => ho ((Fin.ext hk : j = k) ▸ hj)

/-- Writing one cell keeps every other. -/
theorem frame_setCell (s : State) (o : Operand) (v : Value) : Frame [o] s (setCell s o v) where
  regs r hr := by
    cases o <;> simp_all [Fin.ext_iff, eq_comm]
  slots k hk := by
    cases o with
    | g => simp
    | s j =>
      have : k ≠ j.val := fun h => hk j (by simp) h.symm
      simp [slotAt_slotPut, this]
  atop := by simp
  marks := by simp
  res := by simp
  din := by simp
  build := by simp
  aerr := by simp
  ill := by simp
  afull := by simp
  recordAfull := by simp
  actions := by simp
  replies := by simp

theorem Frame.trans {ds es : List Operand} {s t u : State} (h : Frame ds s t) (h' : Frame es t u) :
    Frame (ds ++ es) s u where
  regs r hr := by
    simp only [List.mem_append, not_or] at hr
    exact (h'.regs r hr.2).trans (h.regs r hr.1)
  slots k hk := by
    refine (h'.slots k fun j hj => hk j ?_).trans (h.slots k fun j hj => hk j ?_) <;> simp [hj]
  atop := h'.atop.trans h.atop
  marks := h'.marks.trans h.marks
  res := h'.res.trans h.res
  din := h'.din.trans h.din
  build := h'.build.trans h.build
  aerr := h'.aerr.trans h.aerr
  ill := h'.ill.trans h.ill
  afull := h'.afull.trans h.afull
  recordAfull := h'.recordAfull.trans h.recordAfull
  actions := h'.actions.trans h.actions
  replies := h'.replies.trans h.replies

theorem frame_noteRead (s : State) (p : Part) (o : Operand) : Frame [] s (noteRead s p o) := by
  constructor <;> intros <;> simp

/-! The random-bit source. -/

theorem le_intoRange {lo hi : Nat} (x : Nat) (h : lo ≤ hi) : lo ≤ intoRange lo hi x ∧ intoRange lo hi x ≤ hi := by
  unfold intoRange
  split
  · assumption
  · have := Nat.mod_lt x (by omega : 0 < hi - lo + 1)
    omega

theorem intoRange_of_mem {lo hi x : Nat} (h : lo ≤ x ∧ x ≤ hi) : intoRange lo hi x = x := by
  simp [intoRange, h]

/-- A draw stays in its range (R41). -/
theorem draw_mem {lo hi : Nat} (g : Rng) (h : lo ≤ hi) : lo ≤ (g.draw lo hi).1 ∧ (g.draw lo hi).1 ≤ hi :=
  le_intoRange _ h

/-- Every value of the range is a possible draw (R148: "a model must admit all of them"). -/
theorem draw_delivered {lo hi x : Nat} (rest : List Nat) (n : Nat) (h : lo ≤ x ∧ x ≤ hi) :
    Rng.draw lo hi ⟨x :: rest, n⟩ = (x, ⟨rest, n + 1⟩) := by
  simp [Rng.draw, Rng.raw, intoRange_of_mem h]

/-- `n` fresh bits are below `2 ^ n`. -/
theorem bits_lt (n : Nat) (g : Rng) : (g.bits n).1 < 2 ^ n := by
  have hp := Nat.two_pow_pos n
  unfold Rng.bits
  split
  · simp_all
  · have := (draw_mem (hi := 2 ^ n - 1) g (Nat.zero_le _)).2
    omega

end Sys2Proof.Machine
end

