-- ==== Sys2Proof/Laws/PerInstr.lean ====
section
/-! SUPPORT. The opcode table, command by command: every command's word carries the opcode of its row of 30_encoding.md
R88 and, under the row's mask, nothing but it (R81). -/

namespace Sys2Proof.Laws

/-- The row of the opcode table a command is of. -/
def rowFor : Instr → Row
  | .ldz _ => ⟨0x10, "LDZ", .r1⟩
  | .ldo _ => ⟨0x11, "LDO", .r1⟩
  | .mov _ _ => ⟨0x12, "MOV", .r2⟩
  | .wrb _ _ => ⟨0x13, "WRB", .ri⟩
  | .rdb _ _ => ⟨0x14, "RDB", .ri⟩
  | .setsgn _ _ => ⟨0x15, "SETSGN", .ri⟩
  | .getsgn _ => ⟨0x16, "GETSGN", .r1⟩
  | .add _ _ => ⟨0x20, "ADD", .r2⟩
  | .sub _ _ => ⟨0x21, "SUB", .r2⟩
  | .abssub _ _ => ⟨0x22, "ABSSUB", .r2⟩
  | .mul _ _ => ⟨0x30, "MUL", .r2⟩
  | .mod _ _ => ⟨0x31, "MOD", .r2⟩
  | .div _ _ => ⟨0x32, "DIV", .r2⟩
  | .powmod _ _ _ => ⟨0x33, "POWMOD", .r3⟩
  | .shl _ _ => ⟨0x40, "SHL", .ri⟩
  | .shr _ _ => ⟨0x41, "SHR", .ri⟩
  | .absgt _ _ => ⟨0x42, "ABSGT", .r2⟩
  | .absge _ _ => ⟨0x43, "ABSGE", .r2⟩
  | .getbit _ _ => ⟨0x44, "GETBIT", .ri⟩
  | .setbit _ _ => ⟨0x45, "SETBIT", .ri⟩
  | .randomize _ _ => ⟨0x46, "RANDOMIZE", .ri⟩
  | .aopen => ⟨0x50, "AOPEN", .z⟩
  | .aget => ⟨0x51, "AGET", .z⟩
  | .aclose => ⟨0x52, "ACLOSE", .z⟩
  | .xeuc _ _ => ⟨0x60, "XEUC", .r2⟩
  | .invmod _ _ => ⟨0x61, "INVMOD", .r2⟩
  | .isprime _ _ => ⟨0x62, "ISPRIME", .ri⟩
  | .clrst => ⟨0x70, "CLRST", .z⟩

/-- The family: the word of the command is found in its own row, and agrees with `match` under the row's mask. -/
def TableRow.Statement (i : Instr) : Prop :=
  rowOf (encode i) = some (rowFor i) ∧ encode i &&& (rowFor i).format.mask = (rowFor i).matchWord

theorem rowOf_eq {w : Word} {r : Row} {op : Byte} (h : opField w = op)
    (hr : opcodeTable.find? (fun r => r.op == op.toNat) = some r) : rowOf w = some r := by
  rw [rowOf, h]
  exact hr

/-! A word under the mask of its format: the specifiers and the immediate fall away. -/

theorem wordABC_and_r2 (op a b : Byte) :
    wordABC op a b 0 &&& 0xFF0000FF#32 = (op &&& 0xFF#8) ++ 0#8 ++ 0#8 ++ 0#8 := by
  rw [show (0xFF0000FF#32 : Word) = 0xFF#8 ++ 0#8 ++ 0#8 ++ 0xFF#8 from rfl, wordABC, BitVec.and_append, BitVec.and_append,
    BitVec.and_append]
  simp

theorem wordABC_and_r3 (op a b c : Byte) :
    wordABC op a b c &&& 0xFF000000#32 = (op &&& 0xFF#8) ++ 0#8 ++ 0#8 ++ 0#8 := by
  rw [show (0xFF000000#32 : Word) = 0xFF#8 ++ 0#8 ++ 0#8 ++ 0#8 from rfl, wordABC, BitVec.and_append, BitVec.and_append,
    BitVec.and_append]
  simp

theorem wordAI_and_r1 (op a : Byte) : wordAI op a 0 &&& 0xFF00FFFF#32 = (op &&& 0xFF#8) ++ 0#8 ++ 0#16 := by
  rw [show (0xFF00FFFF#32 : Word) = 0xFF#8 ++ 0#8 ++ 0xFFFF#16 from rfl, wordAI, BitVec.and_append, BitVec.and_append]
  simp

theorem wordAI_and_ri (op a : Byte) (n : Imm16) :
    wordAI op a n &&& 0xFF000000#32 = (op &&& 0xFF#8) ++ 0#8 ++ 0#16 := by
  rw [show (0xFF000000#32 : Word) = 0xFF#8 ++ 0#8 ++ 0#16 from rfl, wordAI, BitVec.and_append, BitVec.and_append]
  simp

/-! One lemma per format of R81, from the opcode and its row. -/

theorem TableRow.ofR1 {i : Instr} (op a : Byte) (r : Row) (hi : encode i = wordAI op a 0) (hr : rowFor i = r)
    (ht : opcodeTable.find? (fun r => r.op == op.toNat) = some r) (hf : r.format.mask = 0xFF00FFFF#32)
    (hm : (op &&& 0xFF#8) ++ 0#8 ++ 0#16 = r.matchWord) : TableRow.Statement i := by
  rw [TableRow.Statement, hi, hr, hf, wordAI_and_r1]
  exact ⟨rowOf_eq (fields_wordAI _ _ _).1 ht, hm⟩

theorem TableRow.ofRI {i : Instr} (op a : Byte) (n : Imm16) (r : Row) (hi : encode i = wordAI op a n) (hr : rowFor i = r)
    (ht : opcodeTable.find? (fun r => r.op == op.toNat) = some r) (hf : r.format.mask = 0xFF000000#32)
    (hm : (op &&& 0xFF#8) ++ 0#8 ++ 0#16 = r.matchWord) : TableRow.Statement i := by
  rw [TableRow.Statement, hi, hr, hf, wordAI_and_ri]
  exact ⟨rowOf_eq (fields_wordAI _ _ _).1 ht, hm⟩

theorem TableRow.ofR2 {i : Instr} (op a b : Byte) (r : Row) (hi : encode i = wordABC op a b 0) (hr : rowFor i = r)
    (ht : opcodeTable.find? (fun r => r.op == op.toNat) = some r) (hf : r.format.mask = 0xFF0000FF#32)
    (hm : (op &&& 0xFF#8) ++ 0#8 ++ 0#8 ++ 0#8 = r.matchWord) : TableRow.Statement i := by
  rw [TableRow.Statement, hi, hr, hf, wordABC_and_r2]
  exact ⟨rowOf_eq (fields_wordABC _ _ _ _).1 ht, hm⟩

theorem TableRow.ofR3 {i : Instr} (op a b c : Byte) (r : Row) (hi : encode i = wordABC op a b c) (hr : rowFor i = r)
    (ht : opcodeTable.find? (fun r => r.op == op.toNat) = some r) (hf : r.format.mask = 0xFF000000#32)
    (hm : (op &&& 0xFF#8) ++ 0#8 ++ 0#8 ++ 0#8 = r.matchWord) : TableRow.Statement i := by
  rw [TableRow.Statement, hi, hr, hf, wordABC_and_r3]
  exact ⟨rowOf_eq (fields_wordABC _ _ _ _).1 ht, hm⟩

theorem TableRow.ldz (a : Operand) : TableRow.Statement (.ldz a) :=
  TableRow.ofR1 0x10 a.spec ⟨0x10, "LDZ", .r1⟩ rfl rfl rfl rfl rfl
theorem TableRow.ldo (a : Operand) : TableRow.Statement (.ldo a) :=
  TableRow.ofR1 0x11 a.spec ⟨0x11, "LDO", .r1⟩ rfl rfl rfl rfl rfl
theorem TableRow.mov (a b : Operand) : TableRow.Statement (.mov a b) :=
  TableRow.ofR2 0x12 a.spec b.spec ⟨0x12, "MOV", .r2⟩ rfl rfl rfl rfl rfl
theorem TableRow.wrb (a : Operand) (j : Imm16) : TableRow.Statement (.wrb a j) :=
  TableRow.ofRI 0x13 a.spec j ⟨0x13, "WRB", .ri⟩ rfl rfl rfl rfl rfl
theorem TableRow.rdb (a : Operand) (j : Imm16) : TableRow.Statement (.rdb a j) :=
  TableRow.ofRI 0x14 a.spec j ⟨0x14, "RDB", .ri⟩ rfl rfl rfl rfl rfl
theorem TableRow.setsgn (a : Operand) (sb : Sign) : TableRow.Statement (.setsgn a sb) :=
  TableRow.ofRI 0x15 a.spec sb.imm ⟨0x15, "SETSGN", .ri⟩ rfl rfl rfl rfl rfl
theorem TableRow.getsgn (a : Operand) : TableRow.Statement (.getsgn a) :=
  TableRow.ofR1 0x16 a.spec ⟨0x16, "GETSGN", .r1⟩ rfl rfl rfl rfl rfl
theorem TableRow.add (a b : Operand) : TableRow.Statement (.add a b) :=
  TableRow.ofR2 0x20 a.spec b.spec ⟨0x20, "ADD", .r2⟩ rfl rfl rfl rfl rfl
theorem TableRow.sub (a b : Operand) : TableRow.Statement (.sub a b) :=
  TableRow.ofR2 0x21 a.spec b.spec ⟨0x21, "SUB", .r2⟩ rfl rfl rfl rfl rfl
theorem TableRow.abssub (a b : Operand) : TableRow.Statement (.abssub a b) :=
  TableRow.ofR2 0x22 a.spec b.spec ⟨0x22, "ABSSUB", .r2⟩ rfl rfl rfl rfl rfl
theorem TableRow.mul (a b : Operand) : TableRow.Statement (.mul a b) :=
  TableRow.ofR2 0x30 a.spec b.spec ⟨0x30, "MUL", .r2⟩ rfl rfl rfl rfl rfl
theorem TableRow.mod (a b : Operand) : TableRow.Statement (.mod a b) :=
  TableRow.ofR2 0x31 a.spec b.spec ⟨0x31, "MOD", .r2⟩ rfl rfl rfl rfl rfl
theorem TableRow.div (a b : Operand) : TableRow.Statement (.div a b) :=
  TableRow.ofR2 0x32 a.spec b.spec ⟨0x32, "DIV", .r2⟩ rfl rfl rfl rfl rfl
theorem TableRow.powmod (a b c : Operand) : TableRow.Statement (.powmod a b c) :=
  TableRow.ofR3 0x33 a.spec b.spec c.spec ⟨0x33, "POWMOD", .r3⟩ rfl rfl rfl rfl rfl
theorem TableRow.shl (a : Operand) (n : Imm16) : TableRow.Statement (.shl a n) :=
  TableRow.ofRI 0x40 a.spec n ⟨0x40, "SHL", .ri⟩ rfl rfl rfl rfl rfl
theorem TableRow.shr (a : Operand) (n : Imm16) : TableRow.Statement (.shr a n) :=
  TableRow.ofRI 0x41 a.spec n ⟨0x41, "SHR", .ri⟩ rfl rfl rfl rfl rfl
theorem TableRow.absgt (a b : Operand) : TableRow.Statement (.absgt a b) :=
  TableRow.ofR2 0x42 a.spec b.spec ⟨0x42, "ABSGT", .r2⟩ rfl rfl rfl rfl rfl
theorem TableRow.absge (a b : Operand) : TableRow.Statement (.absge a b) :=
  TableRow.ofR2 0x43 a.spec b.spec ⟨0x43, "ABSGE", .r2⟩ rfl rfl rfl rfl rfl
theorem TableRow.getbit (a : Operand) (p : Imm16) : TableRow.Statement (.getbit a p) :=
  TableRow.ofRI 0x44 a.spec p ⟨0x44, "GETBIT", .ri⟩ rfl rfl rfl rfl rfl
theorem TableRow.setbit (a : Operand) (p : Imm16) : TableRow.Statement (.setbit a p) :=
  TableRow.ofRI 0x45 a.spec p ⟨0x45, "SETBIT", .ri⟩ rfl rfl rfl rfl rfl
theorem TableRow.randomize (a : Operand) (nb : Imm16) : TableRow.Statement (.randomize a nb) :=
  TableRow.ofRI 0x46 a.spec nb ⟨0x46, "RANDOMIZE", .ri⟩ rfl rfl rfl rfl rfl
theorem TableRow.aopen : TableRow.Statement .aopen := ⟨rfl, rfl⟩
theorem TableRow.aget : TableRow.Statement .aget := ⟨rfl, rfl⟩
theorem TableRow.aclose : TableRow.Statement .aclose := ⟨rfl, rfl⟩
theorem TableRow.xeuc (a b : Operand) : TableRow.Statement (.xeuc a b) :=
  TableRow.ofR2 0x60 a.spec b.spec ⟨0x60, "XEUC", .r2⟩ rfl rfl rfl rfl rfl
theorem TableRow.invmod (a b : Operand) : TableRow.Statement (.invmod a b) :=
  TableRow.ofR2 0x61 a.spec b.spec ⟨0x61, "INVMOD", .r2⟩ rfl rfl rfl rfl rfl
theorem TableRow.isprime (a : Operand) (acc : Imm16) : TableRow.Statement (.isprime a acc) :=
  TableRow.ofRI 0x62 a.spec acc ⟨0x62, "ISPRIME", .ri⟩ rfl rfl rfl rfl rfl
theorem TableRow.clrst : TableRow.Statement .clrst := ⟨rfl, rfl⟩

end Sys2Proof.Laws
end

