-- ==== Sys2Proof/Laws/Step.lean ====
section
/-! SUPPORT. What one step can do, said once. -/

namespace Sys2Proof.Machine

/-- A step to a next state: nothing pending, a `csr_read`, a `csr_write` of another CSR than `CMD`, a `reset`, a decoded
command that answered the state, or an illegal word. -/
theorem step_cases {s t : State} (h : step s = .next t) :
    (s.actions = [] ∧ t = s) ∨
    (∃ n rest, s.actions = .csrRead n :: rest ∧ t = csrRead n { s with actions := rest }) ∨
    (∃ n w rest, n ≠ 7 ∧ s.actions = .csrWrite n w :: rest ∧ t = csrWrite n w { s with actions := rest }) ∨
    (∃ rest, s.actions = .reset :: rest ∧ t = doReset { s with actions := rest }) ∨
    (∃ w rest i, s.actions = .csrWrite 7 w :: rest ∧ decode s.build w = .ok i ∧
      exec i { s with actions := rest } = .next t) ∨
    (∃ w rest r, s.actions = .csrWrite 7 w :: rest ∧ decode s.build w = .error r ∧
      t = raise .ill { s with actions := rest }) := by
  unfold step at h
  split at h
  · rename_i e
    simp only [Host.Outcome.next.injEq] at h
    exact .inl ⟨e, h.symm⟩
  · rename_i act rest e
    unfold perform at h
    split at h
    · simp only [Host.Outcome.next.injEq] at h
      exact .inr (.inl ⟨_, rest, e, h.symm⟩)
    · rename_i n w
      split at h
      · rename_i hn
        subst hn
        unfold command at h
        split at h
        · exact .inr (.inr (.inr (.inr (.inl ⟨w, rest, _, e, ‹_›, h⟩))))
        · simp only [Host.Outcome.next.injEq] at h
          exact .inr (.inr (.inr (.inr (.inr ⟨w, rest, _, e, ‹_›, h.symm⟩))))
      · simp only [Host.Outcome.next.injEq] at h
        exact .inr (.inr (.inl ⟨n, w, rest, ‹_›, e, h.symm⟩))
    · simp only [Host.Outcome.next.injEq] at h
      exact .inr (.inr (.inr (.inl ⟨rest, e, h.symm⟩)))

/-- What every step keeps, every run keeps. -/
theorem run_keeps {P : State → Prop} (hP : ∀ s t, P s → step s = .next t → P t) (k : Nat) {s t : State} (hs : P s)
    (h : Host.Core.run Sys2Proof.core k s = .next t) : P t := by
  induction k generalizing s with
  | zero =>
    cases h
    exact hs
  | succ k ih =>
    simp only [Host.Core.run] at h
    split at h
    · exact ih (hP _ _ hs ‹_›) h
    · cases h
    · cases h

end Sys2Proof.Machine
end

