-- ==== Sys2Proof/Laws/Values.lean ====
section
/-! SUPPORT. What the value functions can do, said once: the width of every result, blocks read after a block is
written, the closed form of the exponentiation loop, and the Euclidean loop's pair. -/

namespace Sys2Proof.Machine

theorem half_add_half {b : Build} (h : b.Wf) : b.H + b.H = b.W := by
  have : b.N / 2 + b.N / 2 = b.N := by have := h.1; omega
  unfold Build.H Build.W
  rw [← Nat.add_mul, this]

theorem two_pow_half_le (b : Build) : 2 ^ b.H ≤ 2 ^ b.W :=
  Nat.pow_le_pow_right (by norm_num) (by unfold Build.H Build.W; exact Nat.mul_le_mul_right _ (Nat.div_le_self _ _))

theorem one_lt_two_pow_W {b : Build} (h : b.Wf) : 1 < 2 ^ b.W := by
  have : 1 * 1 ≤ b.N * b.B := Nat.mul_le_mul (by have := h.2.1; omega) h.2.2.1
  exact Nat.one_lt_two_pow (by unfold Build.W; omega)

/-! Widths (R22). -/

theorem addV_mag_lt {b : Build} {x y : Value} (hx : x.mag < 2 ^ b.W) (hy : y.mag < 2 ^ b.W) :
    (addV b x y).mag < 2 ^ b.W := by
  unfold addV
  split
  · exact Nat.mod_lt _ (Nat.two_pow_pos _)
  · simp only
    split <;> omega

theorem subV_mag_lt {b : Build} {x y : Value} (hx : x.mag < 2 ^ b.W) (hy : y.mag < 2 ^ b.W) :
    (subV b x y).mag < 2 ^ b.W := addV_mag_lt hx hy

theorem mulV_mag_lt {b : Build} (h : b.Wf) (x y : Value) : (mulV b x y).mag < 2 ^ b.W := by
  rw [← half_add_half h, pow_add]
  exact Nat.mul_lt_mul'' (Nat.mod_lt _ (Nat.two_pow_pos _)) (Nat.mod_lt _ (Nat.two_pow_pos _))

theorem modV_mag_lt {b : Build} {x m : Value} (hm : m.mag < 2 ^ b.W) (h0 : m.mag ≠ 0) : (modV b x m).mag < 2 ^ b.W := by
  have hr := Nat.mod_lt x.mag (Nat.pos_of_ne_zero h0)
  unfold modV
  simp only
  split
  · exact hr.trans hm
  · split
    · exact Nat.two_pow_pos _
    · exact addV_mag_lt (hr.trans hm) hm

theorem divV_mag_le (x m : Value) : (divV x m).mag ≤ x.mag := Nat.div_le_self _ _

/-! Blocks (R63, R64). -/

theorem digit (x sh B : Nat) : x / 2 ^ sh % 2 ^ B * 2 ^ sh ≤ x := by
  calc x / 2 ^ sh % 2 ^ B * 2 ^ sh ≤ x / 2 ^ sh * 2 ^ sh := Nat.mul_le_mul_right _ (Nat.mod_le _ _)
    _ ≤ x := Nat.div_mul_le_self _ _

/-- decomposition: x = hi*2^(sh+B) + d*2^sh + lo -/
theorem decomp (x sh B : Nat) : ∃ hi lo, lo < 2 ^ sh ∧ x = hi * 2 ^ (sh + B) + (x / 2 ^ sh % 2 ^ B) * 2 ^ sh + lo := by
  refine ⟨x / 2 ^ sh / 2 ^ B, x % 2 ^ sh, Nat.mod_lt _ (Nat.two_pow_pos _), ?_⟩
  have h1 := Nat.div_add_mod x (2 ^ sh)
  have h2 := Nat.div_add_mod (x / 2 ^ sh) (2 ^ B)
  conv_lhs => rw [← h1, ← h2]
  ring

theorem digit_at (hi lo d sh B : Nat) (hl : lo < 2 ^ sh) (hd : d < 2 ^ B) : (hi * 2 ^ (sh + B) + d * 2 ^ sh + lo) / 2 ^ sh % 2 ^ B = d := by
  have : hi * 2 ^ (sh + B) + d * 2 ^ sh + lo = lo + 2 ^ sh * (d + 2 ^ B * hi) := by ring
  rw [this, Nat.add_mul_div_left _ _ (Nat.two_pow_pos _), Nat.div_eq_of_lt hl, Nat.zero_add, Nat.add_mul_mod_self_left, Nat.mod_eq_of_lt hd]

theorem digit_low (hi lo d sh B s2 : Nat) (h : s2 + B ≤ sh) : (hi * 2 ^ (sh + B) + d * 2 ^ sh + lo) / 2 ^ s2 % 2 ^ B = lo / 2 ^ s2 % 2 ^ B := by
  obtain ⟨k, rfl⟩ : ∃ k, sh = s2 + B + k := ⟨sh - (s2 + B), by omega⟩
  have : hi * 2 ^ (s2 + B + k + B) + d * 2 ^ (s2 + B + k) + lo = lo + 2 ^ s2 * (2 ^ B * (2 ^ k * d + 2 ^ (k + B) * hi)) := by ring
  rw [this, Nat.add_mul_div_left _ _ (Nat.two_pow_pos _), Nat.add_mul_mod_self_left]

theorem digit_high (hi lo d sh B s2 : Nat) (hl : lo < 2 ^ sh) (hd : d < 2 ^ B) (h : sh + B ≤ s2) : (hi * 2 ^ (sh + B) + d * 2 ^ sh + lo) / 2 ^ s2 % 2 ^ B = hi / 2 ^ (s2 - (sh + B)) % 2 ^ B := by
  have e : 2 ^ s2 = 2 ^ (sh + B) * 2 ^ (s2 - (sh + B)) := by rw [← pow_add]; congr 1; omega
  rw [e, ← Nat.div_div_eq_div_mul]
  have hlt : d * 2 ^ sh + lo < 2 ^ (sh + B) := by
    rw [pow_add]; nlinarith
  rw [show hi * 2 ^ (sh + B) + d * 2 ^ sh + lo = (d * 2 ^ sh + lo) + 2 ^ (sh + B) * hi by ring, Nat.add_mul_div_left _ _ (Nat.two_pow_pos _), Nat.div_eq_of_lt hlt, Nat.zero_add]

theorem setBlk_form (b : Build) (v : Value) (j d : Nat) : ∃ hi lo, lo < 2 ^ blockShift b j ∧ v.mag = hi * 2 ^ (blockShift b j + b.B) + blk b v j * 2 ^ blockShift b j + lo ∧ (setBlk b v j d).mag = hi * 2 ^ (blockShift b j + b.B) + (d % 2 ^ b.B) * 2 ^ blockShift b j + lo := by
  obtain ⟨hi, lo, hl, h⟩ := decomp v.mag (blockShift b j) b.B
  refine ⟨hi, lo, hl, h, ?_⟩
  simp only [setBlk, blk]
  omega

theorem shift_lt {b : Build} {j k : Nat} (hj : j < b.N) (h : k < j) : blockShift b j + b.B ≤ blockShift b k := by
  unfold blockShift
  obtain ⟨m, hm⟩ : ∃ m, b.N - 1 - k = (b.N - 1 - j) + 1 + m := ⟨b.N - 1 - k - (b.N - 1 - j) - 1, by omega⟩
  rw [hm]; ring_nf; omega

theorem blk_setBlk_same (b : Build) (v : Value) (j d : Nat) : blk b (setBlk b v j d) j = d % 2 ^ b.B := by
  obtain ⟨hi, lo, hl, -, h⟩ := setBlk_form b v j d
  unfold blk; rw [h, digit_at _ _ _ _ _ hl (Nat.mod_lt _ (Nat.two_pow_pos _))]
theorem blk_setBlk_ne (b : Build) (v : Value) (j k d : Nat) (hj : j < b.N) (hk : k < b.N) (h : k ≠ j) : blk b (setBlk b v j d) k = blk b v k := by
  obtain ⟨hi, lo, hl, h1, h2⟩ := setBlk_form b v j d
  have hB : blk b v j < 2 ^ b.B := Nat.mod_lt _ (Nat.two_pow_pos _)
  have hd : d % 2 ^ b.B < 2 ^ b.B := Nat.mod_lt _ (Nat.two_pow_pos _)
  conv_lhs => unfold blk; rw [h2]
  conv_rhs => unfold blk; rw [h1]
  rcases lt_or_gt_of_ne h with h | h
  · rw [digit_high _ _ _ _ _ _ hl hd (shift_lt hj h), digit_high _ _ _ _ _ _ hl hB (shift_lt hj h)]
  · rw [digit_low _ _ _ _ _ _ (shift_lt hk h), digit_low _ _ _ _ _ _ (shift_lt hk h)]


/-- A block write keeps the magnitude within `W` bits. -/
theorem setBlk_mag_lt {b : Build} (h : b.Wf) {v : Value} (hv : v.mag < 2 ^ b.W) (j d : Nat) :
    (setBlk b v j d).mag < 2 ^ b.W := by
  obtain ⟨hi, lo, hl, h1, h2⟩ := setBlk_form b v j d
  have hd : d % 2 ^ b.B < 2 ^ b.B := Nat.mod_lt _ (Nat.two_pow_pos _)
  have hle : blockShift b j + b.B ≤ b.W := by
    have hN : b.N - 1 - j + 1 ≤ b.N := by have := h.2.1; omega
    have := Nat.mul_le_mul_left b.B hN
    unfold blockShift Build.W
    rw [Nat.mul_comm b.N]
    simpa [Nat.mul_add] using this
  obtain ⟨k, hk⟩ := Nat.exists_eq_add_of_le hle
  rw [hk, pow_add] at hv ⊢
  have hhi : hi < 2 ^ k := by
    by_contra hc
    have := Nat.mul_le_mul_right (2 ^ (blockShift b j + b.B)) (Nat.not_lt.1 hc)
    rw [Nat.mul_comm (2 ^ k)] at this
    omega
  have hlt : d % 2 ^ b.B * 2 ^ blockShift b j + lo < 2 ^ (blockShift b j + b.B) := by
    rw [pow_add]
    nlinarith
  have := Nat.mul_le_mul_left (2 ^ (blockShift b j + b.B)) (Nat.succ_le_of_lt hhi)
  rw [Nat.succ_eq_add_one, Nat.mul_add, Nat.mul_one, Nat.mul_comm _ hi] at this
  omega

/-! The exponentiation loop (R130). -/

theorem powLoop_eq (m : Nat) : ∀ n e f acc, e < 2 ^ n → powLoop m n e f acc = if e = 0 then acc else acc * f ^ e % m := by
  intro n
  induction n with
  | zero => intro e f acc h; simp at h; simp [powLoop, h]
  | succ n ih =>
    intro e f acc h
    rw [powLoop, ih _ _ _ (by omega)]
    have hsq : ∀ k, (f * f % m) ^ k % m = f ^ (2 * k) % m := by intro k; rw [← Nat.pow_mod, ← sq, ← pow_mul]
    rcases Nat.mod_two_eq_zero_or_one e with h0 | h1
    · by_cases he : e = 0
      · simp [he]
      · have : e / 2 ≠ 0 := by omega
        simp only [this, he, h0, if_false]
        norm_num
        rw [Nat.mul_mod, hsq, ← Nat.mul_mod, show 2 * (e / 2) = e by omega]
    · have he : e ≠ 0 := by omega
      simp only [h1, he, if_true, if_false]
      by_cases h2 : e / 2 = 0
      · have : e = 1 := by omega
        simp [this]
      · simp only [h2, if_false]
        rw [Nat.mul_mod, hsq, Nat.mod_mod, ← Nat.mul_mod, mul_assoc, ← pow_succ', show 2 * (e / 2) + 1 = e by omega]

theorem powModV_mag_lt {b : Build} (h : b.Wf) {x e m : Nat} (h0 : m ≠ 0) (hm : m ≤ 2 ^ b.H) (he : e < 2 ^ b.W) :
    powModV b x e m < 2 ^ b.W := by
  rw [powModV, powLoop_eq m _ _ _ _ he]
  split
  · exact one_lt_two_pow_W h
  · exact (Nat.mod_lt _ (Nat.pos_of_ne_zero h0)).trans_le (hm.trans (two_pow_half_le b))

/-! The Euclidean loop (R190). -/

theorem euclidLoop_spec (A B : Nat) : ∀ (n r0 r1 : Nat) (s0 t0 s1 t1 : Int), 2 ≤ r1 → r1 ≤ n →
    s0 * A + t0 * B = r0 → s1 * A + t1 * B = r1 →
    s1.natAbs * r0 + s0.natAbs * r1 = B → t1.natAbs * r0 + t0.natAbs * r1 = A →
    s0 * s1 ≤ 0 → t0 * t1 ≤ 0 →
    (Nat.gcd r0 r1 = 1 → ∃ s t, euclidLoop n r0 r1 s0 t0 s1 t1 = some (s, t) ∧ s * A + t * B = 1 ∧ 2 * s.natAbs ≤ B ∧ 2 * t.natAbs ≤ A) ∧
    (Nat.gcd r0 r1 ≠ 1 → euclidLoop n r0 r1 s0 t0 s1 t1 = none) := by
  intro n
  induction n with
  | zero => intros; omega
  | succ n ih =>
    intro r0 r1 s0 t0 s1 t1 h2 hn e0 e1 bs bt ss st
    have hdm := Nat.mod_add_div r0 r1
    have hlt := Nat.mod_lt r0 (by omega : 0 < r1)
    have hg : Nat.gcd r0 r1 = Nat.gcd r1 (r0 % r1) := by rw [Nat.gcd_comm, Nat.gcd_rec, Nat.gcd_comm]
    unfold euclidLoop
    simp only
    generalize r0 / r1 = q at *
    have e2 : (s0 - q * s1) * A + (t0 - q * t1) * B = ((r0 % r1 : ℕ) : ℤ) := by
      have : ((r0 % r1 : ℕ) : ℤ) = r0 - r1 * q := by rw [← hdm]; push_cast; simp
      rw [this, ← e0, ← e1]; ring
    have habs : ∀ x y : ℤ, x * y ≤ 0 → (x - q * y).natAbs = x.natAbs + q * y.natAbs := by
      intro x y hxy
      rcases le_or_gt 0 x with hx | hx
      · rcases hx.eq_or_lt with rfl | hx
        · simp [Int.natAbs_mul]
        · have hy : y ≤ 0 := by by_contra h; push Not at h; have := mul_pos hx h; omega
          have : 0 ≤ (q:ℤ) * -y := mul_nonneg (by omega) (by omega)
          zify
          rw [abs_of_nonneg (by linarith), abs_of_nonneg hx.le, abs_of_nonpos hy]; ring
      · have hy : 0 ≤ y := by by_contra h; push Not at h; have := mul_pos_of_neg_of_neg hx h; omega
        have : 0 ≤ (q:ℤ) * y := mul_nonneg (by omega) hy
        zify
        rw [abs_of_nonpos (by linarith), abs_of_neg hx, abs_of_nonneg hy]; ring
    have hsgn : ∀ x y : ℤ, x * y ≤ 0 → y * (x - q * y) ≤ 0 := by
      intro x y hxy
      have : 0 ≤ (q:ℤ) * (y * y) := mul_nonneg (by omega) (mul_self_nonneg y)
      nlinarith
    have bs' : (s0 - q * s1).natAbs * r1 + s1.natAbs * (r0 % r1) = B := by
      rw [habs _ _ ss, ← bs]; conv_rhs => rw [← hdm]
      ring
    have bt' : (t0 - q * t1).natAbs * r1 + t1.natAbs * (r0 % r1) = A := by
      rw [habs _ _ st, ← bt]; conv_rhs => rw [← hdm]
      ring
    split
    · rename_i h0
      rw [h0, Nat.gcd_zero_right] at hg
      constructor
      · intro h; omega
      · intro _; rfl
    · split
      · rename_i h0 h1
        constructor
        · intro _
          refine ⟨_, _, rfl, ?_, ?_, ?_⟩
          · rw [e2, h1]; rfl
          · have := Nat.mul_le_mul_left (s0 - q * s1).natAbs h2; omega
          · have := Nat.mul_le_mul_left (t0 - q * t1).natAbs h2; omega
        · intro h; rw [hg, h1] at h; simp at h
      · rename_i h0 h1
        rw [hg]
        exact ih r1 (r0 % r1) s1 t1 _ _ (by omega) (by omega) e1 e2 bs' bt' (hsgn _ _ ss) (hsgn _ _ st)

/-- A pair `solve` answers fits in `H` bits. -/
theorem solve_bound {b : Build} (h : b.Wf) {x y : Value} {p : Int × Int} (hp : solve b x y = .ok p) :
    p.1.natAbs < 2 ^ b.W ∧ p.2.natAbs < 2 ^ b.W := by
  have h1 := one_lt_two_pow_W h
  have hh := two_pow_half_le b
  unfold solve at hp
  split at hp
  · cases hp
  · rename_i hc
    push Not at hc
    split at hp
    · cases hp; simp only [Int.natAbs_one, Int.natAbs_zero]; omega
    · split at hp
      · cases hp; simp only [Int.natAbs_one, Int.natAbs_zero]; omega
      · split at hp
        · cases hp
        · rename_i h2 h3 h4
          push Not at h4
          have he := euclidLoop_spec x.mag y.mag y.mag x.mag y.mag 1 0 0 1 (by omega) le_rfl (by simp) (by simp) (by simp)
            (by simp) (by simp) (by simp)
          by_cases hg : Nat.gcd x.mag y.mag = 1
          · obtain ⟨s, t, e, -, hs, ht⟩ := he.1 hg
            rw [e] at hp
            cases hp
            simp only
            omega
          · rw [he.2 hg] at hp
            cases hp

end Sys2Proof.Machine
end

