-- ==== Sys2Proof/Machine/Assembler.lean ====
section
/-! DEFINITION. The assembler syntax of 30_encoding.md R98: one line of text to the host action it stands for. A line is
a list of characters. Legality of the word is the decoder's business, not the assembler's (log entry 23). -/

namespace Sys2Proof.Machine

/-- A line without its comment: `;` starts one. -/
def withoutComment (l : List Char) : List Char := l.takeWhile (· != ';')

/-- Without the blanks at both ends. -/
def trimBlanks (l : List Char) : List Char := ((l.dropWhile (· == ' ')).reverse.dropWhile (· == ' ')).reverse

/-- The parts between commas, none for a blank text. -/
def commaParts : List Char → List (List Char)
  | [] => []
  | c :: l =>
    if c = ',' then [] :: (match commaParts l with
      | [] => [[]]
      | ps => ps)
    else match commaParts l with
      | [] => [[c]]
      | p :: ps => (c :: p) :: ps

/-- The value of a digit below `base`. -/
def digitValue (base : Nat) (c : Char) : Option Nat :=
  let n := c.toNat
  let d := if '0'.toNat ≤ n ∧ n ≤ '9'.toNat then n - '0'.toNat
    else if 'A'.toNat ≤ n ∧ n ≤ 'F'.toNat then n - 'A'.toNat + 10
    else if 'a'.toNat ≤ n ∧ n ≤ 'f'.toNat then n - 'a'.toNat + 10
    else base
  if d < base then some d else none

/-- The number the digits of a list continue `acc` to. -/
def digitsFrom (base acc : Nat) : List Char → Option Nat
  | [] => some acc
  | c :: l => (digitValue base c).bind fun d => digitsFrom base (acc * base + d) l

/-- A number written in base `base`, of at least one digit. -/
def numeral (base : Nat) (l : List Char) : Option Nat :=
  match l with
  | [] => none
  | _ => digitsFrom base 0 l

/-- An immediate: decimal or `0x` hexadecimal. -/
def number (l : List Char) : Option Nat :=
  match l with
  | '0' :: 'x' :: ds => numeral 16 ds
  | ds => numeral 10 ds

/-- A cell operand, `g0` to `g15` or `s0` to `s127`. -/
def cellOperand (l : List Char) : Option Operand :=
  match l with
  | 'g' :: ds => (numeral 10 ds).bind fun n => if h : n < 16 then some (.g ⟨n, h⟩) else none
  | 's' :: ds => (numeral 10 ds).bind fun n => if h : n < 128 then some (.s ⟨n, h⟩) else none
  | _ => none

/-- A 16-bit immediate. -/
def immediate (l : List Char) : Option Imm16 :=
  (number l).bind fun n => if n < 2 ^ 16 then some (BitVec.ofNat 16 n) else none

/-- The word of a command with opcode `op` in a format, from its operands in field order. -/
def wordOf (f : Format) (op : Byte) (args : List (List Char)) : Option Word :=
  match f, args with
  | .z, [] => some (wordAI op 0 0)
  | .r1, [a] => (cellOperand a).map fun x => wordAI op x.spec 0
  | .r2, [a, b] => (cellOperand a).bind fun x => (cellOperand b).map fun y => wordABC op x.spec y.spec 0
  | .r3, [a, b, c] => (cellOperand a).bind fun x => (cellOperand b).bind fun y => (cellOperand c).map fun z =>
      wordABC op x.spec y.spec z.spec
  | .ri, [a, n] => (cellOperand a).bind fun x => (immediate n).map fun k => wordAI op x.spec k
  | _, _ => none

/-- The mnemonics of R88 as characters, with the row each names. -/
def mnemonics : List (List Char × Row) := opcodeTable.map fun r => (r.mnemonic.toList, r)

/-- The word of a command line or of the pseudo-commands `SQR` and `CLONE` (R99), from its mnemonic and operands. -/
def commandWord (name : List Char) (args : List (List Char)) : Option Word :=
  if name = "SQR".toList then
    match args with
    | [a] => (cellOperand a).map fun x => encode (sqr x)
    | _ => none
  else if name = "CLONE".toList then
    match args with
    | [a, b] => (cellOperand a).bind fun x => (cellOperand b).map fun y => encode (clone x y)
    | _ => none
  else (mnemonics.find? fun p => p.1 == name).bind fun p => wordOf p.2.format (BitVec.ofNat 8 p.2.op) args

/-- What follows the prefix `p` of a text. -/
def afterPrefix : (p l : List Char) → Option (List Char)
  | [], l => some l
  | _ :: _, [] => none
  | a :: p, c :: l => if a = c then afterPrefix p l else none

/-- The arguments of a host action `name(x, y)`, given what follows `name(`. -/
def callNumbers (l : List Char) : Option (List Nat) :=
  match l.reverse with
  | ')' :: r => (commaParts r.reverse).mapM fun p => number (trimBlanks p)
  | _ => none

/-- A host action that is no command: `csr_write(n, w)`, `csr_read(n)` or `reset`. -/
def hostLine (l : List Char) : Option HostAction :=
  if l = "reset".toList then some .reset
  else match afterPrefix "csr_read(".toList l, afterPrefix "csr_write(".toList l with
    | some r, _ => match callNumbers r with
      | some [n] => if h : n < 8 then some (.csrRead ⟨n, h⟩) else none
      | _ => none
    | none, some r => match callNumbers r with
      | some [n, w] => if h : n < 8 ∧ w < 2 ^ 32 then some (.csrWrite ⟨n, h.1⟩ (BitVec.ofNat 32 w)) else none
      | _ => none
    | none, none => none

/-- One line of assembler text: a host action, or a command, which the host issues by writing its word to `CMD`
(R98). -/
def assemble (text : List Char) : Option HostAction :=
  let l := trimBlanks (withoutComment text)
  match hostLine l with
  | some act => some act
  | none =>
    let name := l.takeWhile (· != ' ')
    (commandWord name ((commaParts (l.drop name.length)).map trimBlanks)).map fun w => .csrWrite 7 w

end Sys2Proof.Machine
end

