-- ==== Sys2Proof/Tests/Slice0.lean ====
section
/-! SUPPORT. Tests of one step each, with expected results from 95_test_vectors.md (T32 unless said) and the rules named;
then, for every statement that has hypotheses, a state and operands that meet them. -/

namespace Sys2Proof.Tests

open Sys2Proof.Machine

/-! Builds, states and views. -/

/-- T32 with a finite arena of two slots and one mark (95 section 2.11). -/
def capped : Build := ⟨4, 8, some 2, some 1⟩

/-- A non-negative and a negative value. -/
def pos (n : Nat) : Value := ⟨.pos, n⟩
def neg (n : Nat) : Value := ⟨.neg, n⟩

/-- After reset, with `g1`, `g2`, `g3` holding the three values. -/
def regs3 (x y z : Value) : State := setCell (setCell (setCell .reset (.g 1) x) (.g 2) y) (.g 3) z

/-- Two live slots, `s0 = +7` and `s1 = −9`, handed out around one open scope. -/
def scope1 : State := { State.reset with slots := [pos 7, neg 9], atop := 2, marks := [1], res := 1 }

/-- `s` with one host action pending. -/
def pending (act : HostAction) (s : State) : State := { s with actions := [act] }

/-- What a view shows of the next state. -/
def seen {α : Type} (o : Out) (view : State → α) : Option α :=
  match o with
  | .next t => some (view t)
  | _ => none

/-- The fault of a stop. -/
def stopped (o : Out) : Option Fault :=
  match o with
  | .fault f => some f
  | _ => none

/-- What is in `g1` after a command. -/
def g1After (i : Instr) (s : State) : Option Value := seen (exec i s) fun t => cell t (.g 1)

/-- `T` after a command. -/
def tAfter (i : Instr) (s : State) : Option Bool := seen (exec i s) fun t => t.status.t

/-- The command a word decodes to. -/
def decoded (b : Build) (w : Word) : Option Instr :=
  match decode b w with
  | .ok i => some i
  | .error _ => none

/-- Why a word is illegal. -/
def illegal (b : Build) (w : Word) : Option IllegalWord :=
  match decode b w with
  | .ok _ => none
  | .error r => some r

/-! WellFormed: an ill-formed command for each check (R84, R85, R95). -/

theorem test_wf_slot_below_capacity : WellFormed capped (.ldz (.s 1)) ∧ ¬ WellFormed capped (.ldz (.s 2)) := by decide
theorem test_wf_slot_in_second_field : ¬ WellFormed capped (.mov (.g 0) (.s 2)) := by decide
theorem test_wf_slot_in_third_field : ¬ WellFormed capped (.powmod (.g 0) (.g 1) (.s 2)) := by decide
theorem test_wf_slot_beside_immediate : ¬ WellFormed capped (.shl (.s 2) 1) := by decide
theorem test_wf_block_index : WellFormed .t32 (.wrb (.g 1) 3) ∧ ¬ WellFormed .t32 (.wrb (.g 1) 4) ∧
    ¬ WellFormed .t32 (.rdb (.g 1) 4) := by decide
theorem test_wf_bit_position : WellFormed .t32 (.getbit (.g 1) 31) ∧ ¬ WellFormed .t32 (.getbit (.g 1) 32) ∧
    ¬ WellFormed .t32 (.setbit (.g 1) 65535) := by decide
theorem test_wf_block_count : WellFormed .t32 (.randomize (.g 1) 4) ∧ ¬ WellFormed .t32 (.randomize (.g 1) 5) := by decide
theorem test_wf_xeuc_destinations : WellFormed .t32 (.xeuc (.g 1) (.g 2)) ∧ ¬ WellFormed .t32 (.xeuc (.g 1) (.g 1)) := by
  decide

/-! Decoding: each command's word written out from R80, R81, R84 and R88, one of each family bit by bit. -/

theorem test_decode_ldz : decoded .t32 (0b00010000#8 ++ 0b00000001#8 ++ 0b00000000#8 ++ 0b00000000#8) = some (.ldz (.g 1)) := by
  decide
theorem test_decode_ldo : decoded .t32 0x11820000#32 = some (.ldo (.s 2)) := by decide
theorem test_decode_mov : decoded .t32 0x12800100#32 = some (.mov (.s 0) (.g 1)) := by decide
theorem test_decode_wrb : decoded .t32 0x13010003#32 = some (.wrb (.g 1) 3) := by decide
theorem test_decode_rdb : decoded .t256 0x140F0007#32 = some (.rdb (.g 15) 7) := by decide
theorem test_decode_setsgn : decoded .t32 0x15010001#32 = some (.setsgn (.g 1) .neg) := by decide
theorem test_decode_getsgn : decoded .t32 0x16010000#32 = some (.getsgn (.g 1)) := by decide
theorem test_decode_add : decoded .t32 (0b00100000#8 ++ 0b00001111#8 ++ 0b10000000#8 ++ 0b00000000#8) = some (.add (.g 15) (.s 0)) := by
  decide
theorem test_decode_sub : decoded .t32 0x210E0C00#32 = some (.sub (.g 14) (.g 12)) := by decide
theorem test_decode_abssub : decoded .t32 0x220F0D00#32 = some (.abssub (.g 15) (.g 13)) := by decide
theorem test_decode_mul : decoded .t32 (0b00110000#8 ++ 0b00000001#8 ++ 0b11111111#8 ++ 0b00000000#8) = some (.mul (.g 1) (.s 127)) := by
  decide
theorem test_decode_mod : decoded .t32 0x31010200#32 = some (.mod (.g 1) (.g 2)) := by decide
theorem test_decode_div : decoded .t32 0x32010200#32 = some (.div (.g 1) (.g 2)) := by decide
theorem test_decode_powmod : decoded .t32 (0b00110011#8 ++ 0b00000111#8 ++ 0b00000101#8 ++ 0b00000010#8) =
    some (.powmod (.g 7) (.g 5) (.g 2)) := by decide
theorem test_decode_shl : decoded .t32 0x4001FFFF#32 = some (.shl (.g 1) 65535) := by decide
theorem test_decode_shr : decoded .t32 (0b01000001#8 ++ 0b00000101#8 ++ 0b00000001#8 ++ 0b00000010#8) = some (.shr (.g 5) 258) := by
  decide
theorem test_decode_absgt : decoded .t32 0x42810300#32 = some (.absgt (.s 1) (.g 3)) := by decide
theorem test_decode_absge : decoded .t32 0x43810300#32 = some (.absge (.s 1) (.g 3)) := by decide
theorem test_decode_getbit : decoded .t32 0x4401001F#32 = some (.getbit (.g 1) 31) := by decide
theorem test_decode_setbit : decoded .t256 0x450100FF#32 = some (.setbit (.g 1) 255) := by decide
theorem test_decode_randomize : decoded .t32 0x46010000#32 = some (.randomize (.g 1) 0) := by decide
theorem test_decode_aopen : decoded .t32 (0b01010000#8 ++ 0b00000000#8 ++ 0b00000000#8 ++ 0b00000000#8) = some .aopen := by decide
theorem test_decode_aget : decoded .t32 0x51000000#32 = some .aget := by decide
theorem test_decode_aclose : decoded .t32 0x52000000#32 = some .aclose := by decide
theorem test_decode_xeuc : decoded .t32 (0b01100000#8 ++ 0b00001001#8 ++ 0b00001010#8 ++ 0b00000000#8) = some (.xeuc (.g 9) (.g 10)) := by
  decide
theorem test_decode_invmod : decoded .t32 0x61010100#32 = some (.invmod (.g 1) (.g 1)) := by decide
theorem test_decode_isprime : decoded .t32 (0b01100010#8 ++ 0b00000001#8 ++ 0b11111111#8 ++ 0b11111111#8) = some (.isprime (.g 1) 65535) := by
  decide
theorem test_decode_clrst : decoded .t32 (0b01110000#8 ++ 0b00000000#8 ++ 0b00000000#8 ++ 0b00000000#8) = some .clrst := by decide

/-- The opcodes of R88 are pairwise different. -/
theorem test_opcodes_differ : opcodeTable.Pairwise fun r q => r.op ≠ q.op := by decide

/-- The illegal words of 95 section 2.11, test (1) of R95. -/
theorem test_illegal_opcode : [0x00000000#32, 0xFFFFFFFF#32, 0x17010000#32, 0x23010200#32].map (illegal .t32) =
    List.replicate 4 (some .reservedOpcode) := by decide
theorem test_illegal_unused_field : [0x50000001#32, 0x10010001#32, 0x20010203#32].map (illegal .t32) =
    List.replicate 3 (some .unusedField) := by decide
theorem test_illegal_specifier : [0x20100200#32, 0x20017F00#32, 0x33010240#32].map (illegal .t32) =
    List.replicate 3 (some .badSpecifier) ∧ illegal capped 0x10820000#32 = some .badSpecifier := by decide
theorem test_illegal_immediate : [0x13010004#32, 0x14010004#32, 0x15010002#32, 0x44010020#32, 0x4501FFFF#32,
    0x46010005#32].map (illegal .t32) = List.replicate 6 (some .badImmediate) := by decide
theorem test_illegal_xeuc : illegal .t32 0x60010100#32 = some .sameDestination := by decide
/-- R95: the first test that holds names the reason: an unused field before a specifier, a specifier before an
immediate. -/
theorem test_illegal_order : illegal .t32 0x10100001#32 = some .unusedField ∧
    illegal .t32 0x13100004#32 = some .badSpecifier := by decide

/-! Commands (95 sections 2.1 to 2.11). -/

theorem test_ldz : g1After (.ldz (.g 1)) (regs3 (neg 5) (pos 0) (pos 0)) = some (pos 0) := by decide
theorem test_ldo : g1After (.ldo (.g 1)) (regs3 (neg 5) (pos 0) (pos 0)) = some (pos 1) := by decide
theorem test_mov_negative_zero : g1After (.mov (.g 1) (.g 2)) (regs3 (pos 5) (neg 0) (pos 0)) = some (neg 0) := by decide
theorem test_wrb_top_block : g1After (.wrb (.g 1) 0) { regs3 (pos 0xFD) (pos 0) (pos 0) with din := 0x12 } =
    some (pos 0x120000FD) := by decide
theorem test_rdb : seen (exec (.rdb (.g 1) 0) (regs3 (pos 0x120000FD) (pos 0) (pos 0))) (fun t => t.dout) = some 0x12#32 := by
  decide
theorem test_setsgn : g1After (.setsgn (.g 1) .neg) (regs3 (pos 0) (pos 0) (pos 0)) = some (neg 0) := by decide
theorem test_getsgn_negative_zero : tAfter (.getsgn (.g 1)) (regs3 (neg 0) (pos 0) (pos 0)) = some true := by decide
theorem test_add_truncates : g1After (.add (.g 1) (.g 2)) (regs3 (neg 0xFFFFFFFF) (neg 2) (pos 0)) = some (neg 1) := by decide
theorem test_add_equal_magnitudes : g1After (.add (.g 1) (.g 2)) (regs3 (neg 5) (pos 5) (pos 0)) = some (neg 0) := by decide
theorem test_sub_opposite_signs : g1After (.sub (.g 1) (.g 2)) (regs3 (pos 0xFFFFFFFF) (neg 1) (pos 0)) = some (pos 0) := by
  decide
theorem test_sub_alias : g1After (.sub (.g 1) (.g 1)) (regs3 (neg 7) (pos 0) (pos 0)) = some (neg 0) := by decide
theorem test_abssub_borrows : g1After (.abssub (.g 1) (.g 2)) (regs3 (pos 0x10000000) (pos 1) (pos 0)) =
    some (pos 0x0FFFFFFF) := by decide
theorem test_abssub_underflow : stopped (exec (.abssub (.g 1) (.g 2)) (regs3 (pos 3) (pos 5) (pos 0))) =
    some .absSubUnderflow := by decide
theorem test_mul_low_halves : g1After (.mul (.g 1) (.g 2)) (regs3 (pos 0x12345678) (neg 0x9ABCDEF0) (pos 0)) =
    some (neg 0x4B4D2080) := by decide
theorem test_mul_zero_sign : g1After (.mul (.g 1) (.g 2)) (regs3 (neg 3) (pos 0) (pos 0)) = some (neg 0) := by decide
theorem test_mod_negative_modulus : g1After (.mod (.g 1) (.g 2)) (regs3 (neg 3) (neg 0xFFFFFFFF) (pos 0)) = some (neg 2) := by
  decide
theorem test_mod_exact_multiple : g1After (.mod (.g 1) (.g 2)) (regs3 (neg 10) (pos 5) (pos 0)) = some (pos 0) := by decide
theorem test_div_toward_zero : g1After (.div (.g 1) (.g 2)) (regs3 (neg 0x64) (pos 7) (pos 0)) = some (neg 0xE) := by decide
theorem test_div_negative_zero : g1After (.div (.g 1) (.g 2)) (regs3 (neg 2) (pos 0x17) (pos 0)) = some (neg 0) := by decide
/-- The round trace of R124 for 231 by 23. -/
theorem test_shift_subtract : greatestShift 231 23 = 3 ∧ greatestShift 47 23 = 1 ∧ shiftSubtract 2 231 23 0 = some (10, 1) := by
  decide
theorem test_powmod_reduces_base : g1After (.powmod (.g 1) (.g 2) (.g 3)) (regs3 (pos 25) (pos 6) (pos 23)) =
    some (pos 18) := by decide
theorem test_powmod_exponent_zero : g1After (.powmod (.g 1) (.g 2) (.g 3)) (regs3 (pos 5) (pos 0) (pos 1)) =
    some (pos 1) := by decide
theorem test_shl : g1After (.shl (.g 1) 12) (regs3 (pos 0x12345678) (pos 0) (pos 0)) = some (pos 0x45678000) := by decide
theorem test_shr_full_width : g1After (.shr (.g 1) 32) (regs3 (neg 0x12345678) (pos 0) (pos 0)) = some (neg 0) := by decide
theorem test_absgt_ignores_signs : tAfter (.absgt (.g 1) (.g 2)) (regs3 (neg 5) (pos 3) (pos 0)) = some true := by decide
theorem test_absge_equal : tAfter (.absge (.g 1) (.g 2)) (regs3 (neg 0) (pos 0) (pos 0)) = some true := by decide
theorem test_getbit_block_edge : tAfter (.getbit (.g 1) 8) (regs3 (pos 0x800000) (pos 0) (pos 0)) = some true ∧
    tAfter (.getbit (.g 1) 7) (regs3 (pos 0x800000) (pos 0) (pos 0)) = some false := by decide
theorem test_setbit_top : g1After (.setbit (.g 1) 0) (regs3 (neg 1) (pos 0) (pos 0)) = some (neg 0x80000001) := by decide
theorem test_randomize : g1After (.randomize (.g 1) 2) { regs3 (pos 0x12345678) (pos 0) (pos 0) with rng := ⟨[0xA5C3], 0⟩ } =
    some (pos 0xA5C3) := by decide
theorem test_randomize_no_blocks : seen (exec (.randomize (.g 1) 0) (regs3 (neg 5) (pos 0) (pos 0)))
    (fun t => (cell t (.g 1), t.rng.count)) = some (neg 0, 0) := by decide
theorem test_aopen : seen (exec .aopen scope1) (fun t => (t.atop, t.marks)) = some (2, [2, 1]) := by decide
theorem test_aget_reborn_zero : seen (exec .aget { scope1 with slots := [pos 7], atop := 1 })
    (fun t => (t.atop, t.res, cell t (.s 1))) = some (2, 1, pos 0) := by decide
theorem test_aget_full : seen (exec .aget { scope1 with build := capped }) (fun t => (t.atop, t.res, t.status.afull, t.record.afull)) =
    some (2, 1, true, true) := by decide
theorem test_aclose : seen (exec .aclose scope1) (fun t => (t.atop, t.marks, t.res, cell t (.s 0), live t (.s 1))) =
    some (1, [], 1, pos 7, false) := by decide
theorem test_aclose_unmatched : seen (exec .aclose { scope1 with marks := [] }) (fun t => (t.atop, statusWord t.status)) =
    some (2, 2#32) := by decide
theorem test_xeuc : seen (exec (.xeuc (.g 1) (.g 2)) (regs3 (pos 240) (pos 17) (pos 0))) (fun t => (cell t (.g 1), cell t (.g 2))) =
    some (neg 8, pos 113) := by decide
theorem test_xeuc_not_coprime : stopped (exec (.xeuc (.g 1) (.g 2)) (regs3 (pos 6) (pos 4) (pos 0))) = some .notCoprime := by
  decide
theorem test_invmod : g1After (.invmod (.g 1) (.g 2)) (regs3 (pos 11) (pos 23) (pos 0)) = some (pos 21) := by decide
theorem test_invmod_zero_modulus : stopped (exec (.invmod (.g 1) (.g 2)) (regs3 (pos 1) (pos 0) (pos 0))) =
    some .zeroModulus := by decide
theorem test_isprime_stops_at_first_failure : seen (exec (.isprime (.g 1) 3)
    { regs3 (pos 27) (pos 0) (pos 0) with rng := ⟨[26, 1, 2], 0⟩ }) (fun t => (t.status.t, t.rng)) = some (false, ⟨[], 3⟩) := by decide
theorem test_isprime_squares : (seen (exec (.isprime (.g 1) 1) { regs3 (pos 25) (pos 0) (pos 0) with rng := ⟨[7], 0⟩ })
    (fun t => t.status.t)) = some true := by decide
theorem test_clrst : seen (exec .clrst { State.reset with status := ⟨true, true, true, true⟩ }) (fun t => statusWord t.status) =
    some 1#32 := by decide
/-- R28, R225 U6 (the last row of 95 section 2.11): a dead slot stops the command. -/
theorem test_dead_slot : stopped (exec (.mov (.g 1) (.s 1)) State.reset) = some (.deadSlot 1) := by decide

/-! Steps and host actions. -/

theorem test_step_runs_command : seen (step (State.reset.withFetchWord 32 0x10010000)) (fun t => (cell t (.g 1), t.actions)) =
    some (pos 0, []) := by decide
theorem test_step_illegal_word : seen (step (State.reset.withFetchWord 32 0x60010100)) (fun t => statusWord t.status) =
    some 4#32 := by decide
theorem test_step_din_keeps_low_bits : seen (step (pending (.csrWrite 5 0x1FF) State.reset)) (fun t => t.din) = some 0xFF#32 := by
  decide
theorem test_step_cfg : seen (step (pending (.csrRead 0) (.resetFor .t256))) (fun t => t.replies) = some [0x00200008#32] := by
  decide
theorem test_step_read_only : step (pending (.csrWrite 4 9) scope1) = .next scope1 := rfl
theorem test_table_word : decodeTableWord 32 0x31010200 = some (.mod (.g 1) (.g 2)) ∧
    decodeTableWord 32 0x17010000 = none := by decide

/-! Assembler text (R98, R99). -/

theorem test_assemble_command : assemble "POWMOD g7, g5, s127 ; comment".toList = some (.csrWrite 7 0x330705FF#32) := by decide
theorem test_assemble_immediate : assemble "SHR g5, 0x1f".toList = some (.csrWrite 7 0x4105001F#32) ∧
    assemble "  RDB g1, 3".toList = some (.csrWrite 7 0x14010003#32) := by decide
theorem test_assemble_pseudo : assemble "SQR g3".toList = some (.csrWrite 7 0x30030300#32) ∧
    assemble "CLONE g2, g1".toList = some (.csrWrite 7 0x12020100#32) := by decide
theorem test_assemble_host_action : assemble "csr_write(5, 0xFD)".toList = some (.csrWrite 5 0xFD#32) ∧
    assemble "csr_read(6)".toList = some (.csrRead 6) ∧ assemble "reset".toList = some .reset ∧
    assemble "csr_read(8)".toList = none := by decide
theorem test_assemble_refuses : assemble "ADD g1".toList = none ∧ assemble "LDZ g16".toList = none ∧
    assemble "SHL g1, 65536".toList = none := by decide

/-! Witnesses: what meets the hypotheses of each statement that has some, each clause at a boundary of its range. -/

/-- A legal build at each end of R5, and one with both capacities. -/
theorem witness_Build : Build.Wf ⟨2, 1, some 1, some 1⟩ ∧ Build.Wf ⟨65536, 1, none, none⟩ ∧ Build.Wf ⟨2048, 32, some 128, none⟩ ∧
    Build.Wf capped ∧ Build.Wf .t32 ∧ Build.Wf .t256 := by decide

/-- A state of the invariant with live slots, a mark, both capacities reached, and `DIN`, registers and slots at the
largest value of T32. -/
def full : State :=
  { State.resetFor capped with
    regs := Vector.replicate 16 (neg 0xFFFFFFFF), slots := [pos 0xFFFFFFFF, neg 0], atop := 2, marks := [2], din := 0xFF,
    dout := 0xFF, status := ⟨true, false, false, false⟩ }

theorem witness_Inv (acts : List HostAction) : Inv { full with actions := acts } where
  build := show capped.Wf by decide
  regs := show ∀ r : Fin 16, ((full.regs)[r]).mag < 2 ^ capped.W by decide
  slots := show ∀ v ∈ full.slots, v.mag < 2 ^ capped.W by decide
  held := rfl
  marks := ⟨le_rfl, trivial⟩
  arenaCap := show ∀ c ∈ capped.arenaCap, 2 ≤ c by decide
  markCap := show ∀ c ∈ capped.markCap, 1 ≤ c by decide
  din := show (0xFF#32).toNat < 2 ^ capped.B by decide
  dout := show (0xFF#32).toNat < 2 ^ capped.B by decide
  written := show ∀ r : Fin 16, ((full.written)[r]).blocks.length = capped.N by decide

theorem witness_StepKeepsInvariant : ∃ s t, Inv s ∧ step s = .next t ∧ s ≠ t :=
  ⟨_, _, witness_Inv [issue .aclose], rfl, by decide⟩
theorem witness_StepKeepsBuild : ∃ s t, step s = .next t ∧ s ≠ t := ⟨pending .reset full, _, rfl, by decide⟩

theorem witness_DecodeOfEncode : WellFormed capped (.powmod (.g 15) (.s 1) (.g 0)) ∧ WellFormed .t256 (.wrb (.s 127) 7) ∧
    WellFormed .t256 (.getbit (.g 0) 255) ∧ WellFormed .t256 (.randomize (.g 0) 8) ∧ WellFormed .t32 (.xeuc (.g 0) (.s 0)) ∧
    WellFormed .t32 (.setsgn (.g 0) .neg) ∧ WellFormed .t32 (.isprime (.g 0) 65535) := by decide
theorem witness_EncodeOfDecode : decode .t32 0x60010200#32 = .ok (.xeuc (.g 1) (.g 2)) ∧
    decode .t32 0x46010004#32 = .ok (.randomize (.g 1) 4) := by decide
theorem witness_IllegalWordSetsIllOnly : (pending (.csrWrite 7 0x60010100) full).actions = .csrWrite 7 0x60010100#32 :: [] ∧
    illegalReason capped 0x60010100#32 = some .sameDestination ∧ illegalReason capped 0x44010020#32 = some .badImmediate ∧
    illegalReason capped 0x10820000#32 = some .badSpecifier ∧ illegalReason capped 0x10010001#32 = some .unusedField ∧
    illegalReason capped 0x71000000#32 = some .reservedOpcode ∧ illegalReason capped 0x10810000#32 = none := by decide
theorem witness_StepRunsDecodedCommand : (pending (.csrWrite 7 0x70000000) full).actions = .csrWrite 7 0x70000000#32 :: [] ∧
    decode full.build 0x70000000#32 = .ok .clrst ∧ decode full.build (BitVec.ofNat 32 (0x70000000 % 2 ^ 32)) = .ok .clrst := by decide
theorem witness_CsrReadReturnsContent (n : Fin 8) : (pending (.csrRead n) full).actions = .csrRead n :: [] := rfl
theorem witness_CsrWriteStoresDinOnly (n : Fin 8) (w : Word) : (pending (.csrWrite n w) full).actions = .csrWrite n w :: [] := rfl
theorem witness_ResetActionRestoresResetState : (pending .reset full).actions = .reset :: [] := rfl

theorem witness_RecordOutlivesSteps : ∃ s t, step s = .next t ∧ (∀ rest, s.actions ≠ .reset :: rest) ∧
    s.record = ⟨true, true⟩ ∧ s.status.afull = true ∧ t.status.afull = false :=
  ⟨{ pending (issue .clrst) full with record := ⟨true, true⟩, status := ⟨false, false, false, true⟩ }, _, rfl,
    by simp [pending, issue], rfl, rfl, rfl⟩
theorem witness_RecordOutlivesSteps_new : ∃ s t, step s = .next t ∧ (∀ rest, s.actions ≠ .reset :: rest) ∧
    (s.status.afull = true → s.record.afull = true) ∧ t.status.afull = true :=
  ⟨pending (issue .aget) full, _, rfl, by simp [pending, issue], by decide, rfl⟩

theorem witness_DeadSlotStopsEveryCommand : (∃ o ∈ named (.powmod (.g 0) (.g 1) (.s 2)), live scope1 o = false) ∧
    (∃ o ∈ named (.ldz (.s 127)), live scope1 o = false) := by decide
theorem witness_FaultsAreListedViolations :
    stopped (exec (.ldz (.s 2)) scope1) = some (.deadSlot 2) ∧
    stopped (exec (.abssub (.g 1) (.g 2)) (regs3 (pos 4) (pos 5) (pos 0))) = some .absSubUnderflow ∧
    stopped (exec (.xeuc (.g 1) (.g 2)) (regs3 (pos 7) (pos 7) (pos 0))) = some .notCoprime ∧
    stopped (exec (.mod (.g 1) (.g 2)) (regs3 (pos 7) (neg 0) (pos 0))) = some .zeroModulus ∧
    stopped (exec (.powmod (.g 1) (.g 2) (.g 3)) (regs3 (pos 5) (pos 3) (pos 0x10001))) = some .modulusTooWide ∧
    stopped (exec (.invmod (.g 1) (.g 2)) (regs3 (pos 0x10000) (pos 7) (pos 0))) = some .euclidOperand ∧
    stopped (exec (.isprime (.g 1) 1) (regs3 (pos 0x10001) (pos 0) (pos 0))) = some .primeOperand := by decide
theorem witness_OnlyFiveCommandsWriteT : ∃ t, exec (.rdb (.s 0) 0) full = .next t ∧ writesT (.rdb (.s 0) 0) = false :=
  ⟨_, rfl, rfl⟩
theorem witness_StickyFlagsChangeAsListed : (∃ t, exec .clrst full = .next t) ∧
    (∃ t, exec .aclose { full with marks := [] } = .next t ∧ t.status.aerr = true) ∧
    (∃ t, exec .aget full = .next t ∧ t.status.afull = true) ∧ (∃ t, exec .aopen full = .next t ∧ t.status.afull = true) :=
  ⟨⟨_, rfl⟩, ⟨_, rfl, rfl⟩, ⟨_, rfl, rfl⟩, ⟨_, rfl, rfl⟩⟩
theorem witness_OnlyArenaCommandsMoveTheArena : ∃ t, exec (.mov (.s 1) (.g 0)) full = .next t ∧
    isArena (.mov (.s 1) (.g 0)) = false ∧ (0 < full.atop ∧ ∀ j : Fin 128, Operand.s j ∈ dests (.mov (.s 1) (.g 0)) → j.val ≠ 0) :=
  ⟨_, rfl, rfl, by decide⟩
theorem witness_CommandsWriteOnlyTheirDestinations : ∃ t, exec .aclose scope1 = .next t ∧ Operand.s 0 ∉ dests .aclose ∧
    live scope1 (.s 0) = true ∧ live t (.s 0) = true := ⟨_, rfl, by decide, rfl, rfl⟩
theorem witness_UnwrittenReadsAreRecorded : ∃ t, exec (.rdb (.g 5) 0) State.reset = .next t ∧ t.record.unwritten = true :=
  ⟨_, rfl, rfl⟩

/-! The result statements. `g1` and `g2` hold `x` and `y`, live, and `p` holds of what they hold. -/

abbrev Holds2 (x y : Value) (p : Value → Value → Prop) : Prop :=
  live (regs3 x y y) (.g 1) = true ∧ live (regs3 x y y) (.g 2) = true ∧
    p (cell (regs3 x y y) (.g 1)) (cell (regs3 x y y) (.g 2))

theorem witness_LdzLoadsZero : live full (.g 0) = true ∧ live full (.s 1) = true := by decide
theorem witness_LdoLoadsOne : live full (.g 15) = true ∧ live full (.s 0) = true := by decide
theorem witness_MovCopiesCell : live full (.s 1) = true ∧ live full (.g 0) = true := by decide
theorem witness_WrbWritesOneBlock : live full (.s 1) = true ∧ (0#16).toNat < full.build.N ∧ (3#16).toNat < full.build.N := by
  decide
theorem witness_RdbReadsOneBlock : live full (.g 0) = true ∧ (3#16).toNat < full.build.N ∧ full.build.B ≤ 32 := by decide
theorem witness_SetsgnWritesSign : live full (.g 0) = true ∧ live full (.s 1) = true := by decide
theorem witness_GetsgnReadsSign : live full (.g 0) = true ∧ live full (.s 1) = true := by decide
theorem witness_AddIsSignedTruncatingSum : Holds2 (neg 0xFFFFFFFF) (neg 2) (fun x y => x.sgn = y.sgn) ∧
    Holds2 (pos 5) (neg 5) (fun x y => x.sgn = .pos ∧ y.sgn = .neg ∧ y.mag ≤ x.mag) ∧
    Holds2 (pos 4) (neg 5) (fun x y => x.sgn = .pos ∧ y.sgn = .neg ∧ x.mag < y.mag) ∧
    Holds2 (neg 5) (pos 5) (fun x y => x.sgn = .neg ∧ y.sgn = .pos ∧ y.mag ≤ x.mag) ∧
    Holds2 (neg 4) (pos 5) (fun x y => x.sgn = .neg ∧ y.sgn = .pos ∧ x.mag < y.mag) ∧
    Holds2 (pos 0xFFFFFFFF) (pos 0) (fun x y => x.sgn = y.sgn → x.mag + y.mag < 2 ^ Build.t32.W) := by decide
theorem witness_SubIsSignedTruncatingDifference : Holds2 (neg 0xFFFFFFFF) (pos 2) (fun x y => x.sgn ≠ y.sgn) ∧
    Holds2 (neg 5) (neg 5) (fun x y => x.sgn = y.sgn ∧ y.mag ≤ x.mag) ∧
    Holds2 (pos 4) (pos 5) (fun x y => x.sgn = .pos ∧ y.sgn = .pos ∧ x.mag < y.mag) ∧
    Holds2 (neg 4) (neg 5) (fun x y => x.sgn = .neg ∧ y.sgn = .neg ∧ x.mag < y.mag) ∧
    Holds2 (pos 0xFFFFFFFF) (neg 0) (fun x y => x.sgn ≠ y.sgn → x.mag + y.mag < 2 ^ Build.t32.W) := by decide
theorem witness_AbssubSubtractsMagnitudes : Holds2 (pos 5) (neg 5) (fun x y => y.mag ≤ x.mag) ∧
    Holds2 (pos 4) (neg 5) (fun x y => x.mag < y.mag) := by decide
theorem witness_MulMultipliesLowHalves : Build.t32.Wf ∧
    Holds2 (pos 0xFFFF) (neg 0xFFFF) (fun x y => x.mag < 2 ^ Build.t32.H ∧ y.mag < 2 ^ Build.t32.H) := by decide
theorem witness_ModReducesToResidue : Holds2 (pos 7) (neg 0) (fun _ m => m.mag = 0) ∧
    Holds2 (pos 7) (pos 1) (fun x m => m.mag ≠ 0 ∧ x.sgn = .pos) ∧
    Holds2 (neg 10) (pos 5) (fun x m => m.mag ≠ 0 ∧ x.mag % m.mag = 0) ∧
    Holds2 (neg 2) (pos 23) (fun x m => m.mag ≠ 0 ∧ x.sgn = .neg ∧ m.sgn = .pos ∧ x.mag % m.mag ≠ 0) ∧
    Holds2 (neg 3) (neg 0xFFFFFFFF) (fun x m => m.mag ≠ 0 ∧ x.sgn = .neg ∧ m.sgn = .neg ∧ x.mag % m.mag ≠ 0) := by decide
theorem witness_DivTruncatesTowardZero : Holds2 (pos 7) (neg 0) (fun _ m => m.mag = 0) ∧
    Holds2 (neg 0xFFFFFFFF) (pos 1) (fun _ m => m.mag ≠ 0) := by decide
theorem witness_ShiftSubtractLoopDivides : 1 ≤ 23 ∧ 23 ≤ 231 ∧ 23 * 2 ^ 3 ≤ 231 ∧ 0xFFFFFFFF < 2 ^ Build.t32.W := by decide
theorem witness_PowmodIsModularPower : live (regs3 (pos 5) (pos 0xFFFFFFFF) (pos 0x10000)) (.g 3) = true ∧
    1 ≤ (cell (regs3 (pos 5) (pos 0xFFFFFFFF) (pos 0x10000)) (.g 3)).mag ∧
    (cell (regs3 (pos 5) (pos 0xFFFFFFFF) (pos 0x10000)) (.g 3)).mag ≤ 2 ^ Build.t32.H ∧
    (cell (regs3 (pos 5) (pos 0xFFFFFFFF) (pos 0x10000)) (.g 2)).mag < 2 ^ Build.t32.W ∧
    2 ^ Build.t32.H < (cell (regs3 (pos 5) (pos 3) (pos 0x10001)) (.g 3)).mag ∧
    (cell (regs3 (pos 5) (pos 3) (neg 0)) (.g 3)).mag = 0 := by decide
theorem witness_ShiftsMoveMagnitude : live full (.s 0) = true ∧ full.build.W ≤ (32#16).toNat ∧
    ¬ full.build.W ≤ (31#16).toNat ∧ (cell full (.s 0)).mag < 2 ^ full.build.W := by decide
theorem witness_ShiftLaws : live full (.s 0) = true ∧ (cell full (.s 0)).mag < 2 ^ full.build.W := by decide
theorem witness_ComparisonsSetT : live full (.g 0) = true ∧ live full (.s 1) = true := by decide
theorem witness_GetbitReadsPosition : live full (.s 0) = true ∧ (31#16).toNat < full.build.W ∧ (0#16).toNat < full.build.W := by
  decide
theorem witness_SetbitSetsPosition : live full (.g 0) = true ∧ (31#16).toNat < full.build.W ∧ (0#16).toNat < full.build.W := by
  decide
theorem witness_BitPositionsLieInBlocks : Build.t32.Wf ∧ 31 < Build.t32.W ∧ 0 < Build.t32.W := by decide
theorem witness_RandomizeFillsLowBlocks : live full (.g 0) = true ∧ (4#16).toNat ≤ full.build.N ∧
    (0#16).toNat ≤ full.build.N ∧ full.build.Wf := by decide
theorem witness_RandomizeAdmitsEveryValue : live full (.g 0) = true ∧ full.build.Wf ∧ (4#16).toNat ≤ full.build.N ∧
    0xFFFFFFFF < 2 ^ ((4#16).toNat * full.build.B) ∧ 0 < 2 ^ ((0#16).toNat * full.build.B) := by decide
theorem witness_AopenPushesMark : full.build.markCap = some full.marks.length ∧
    scope1.build.markCap ≠ some scope1.marks.length ∧ (State.resetFor capped).build.markCap ≠ some 0 := by decide
theorem witness_AgetHandsOutZeroSlot : full.build.arenaCap = some full.atop ∧ scope1.build.arenaCap ≠ some scope1.atop ∧
    (State.resetFor capped).build.arenaCap ≠ some 1 := by decide
theorem witness_AclosePopsMark : State.reset.marks = [] ∧ scope1.marks = 1 :: [] ∧ full.marks = 2 :: [] := by decide

/-- A scope with an inner scope, two slots handed out and one written. -/
theorem witness_ArenaScopeRestores : Scoped [.aget, .aopen, .aget, .aclose, .ldo (.s 2)] ∧
    ∃ t, execAll (.aopen :: [.aget, .aopen, .aget, .aclose, .ldo (.s 2)] ++ [.aclose]) scope1 = .next t ∧ t.record.afull = false :=
  ⟨.get (.pair (.get .nil) (.other rfl .nil)), _, rfl, rfl⟩
/-- The pairs of 95 section 2.9, base cases first among their kind. -/
theorem witness_XeucGivesBezoutPair (a b : Nat) (h : (a, b) ∈ [(240, 17), (1, 1), (9, 1), (0, 1), (1, 0), (65521, 65519)]) :
    live (regs3 (pos a) (pos b) (pos 0)) (.g 1) = true ∧ Operand.g 1 ≠ .g 2 ∧
      (cell (regs3 (pos a) (pos b) (pos 0)) (.g 1)).sgn = .pos ∧ (cell (regs3 (pos a) (pos b) (pos 0)) (.g 1)).mag < 2 ^ Build.t32.H ∧
      (cell (regs3 (pos a) (pos b) (pos 0)) (.g 2)).mag < 2 ^ Build.t32.H ∧ Nat.gcd a b = 1 := by
  simp only [List.mem_cons, Prod.mk.injEq, List.not_mem_nil, or_false] at h
  rcases h with ⟨rfl, rfl⟩ | ⟨rfl, rfl⟩ | ⟨rfl, rfl⟩ | ⟨rfl, rfl⟩ | ⟨rfl, rfl⟩ | ⟨rfl, rfl⟩ <;> decide
theorem witness_InvmodInverts : Holds2 (pos 1) (pos 0) (fun x m => x.sgn = .pos ∧ m.sgn = .pos ∧ x.mag < 2 ^ Build.t32.H ∧
      m.mag < 2 ^ Build.t32.H ∧ Nat.gcd x.mag m.mag = 1 ∧ m.mag = 0) ∧
    Holds2 (pos 65521) (pos 65519) (fun x m => x.sgn = .pos ∧ m.sgn = .pos ∧ x.mag < 2 ^ Build.t32.H ∧
      m.mag < 2 ^ Build.t32.H ∧ Nat.gcd x.mag m.mag = 1 ∧ m.mag ≠ 0) := by decide
theorem witness_EuclidStopsOutsidePreconditions : Holds2 (neg 0) (pos 7) (fun x _ => x.sgn = .neg) ∧
    Holds2 (pos 7) (neg 5) (fun _ y => y.sgn = .neg) ∧ Holds2 (pos 0x10000) (pos 7) (fun x _ => 2 ^ Build.t32.H ≤ x.mag) ∧
    Holds2 (pos 7) (pos 0x10000) (fun _ y => 2 ^ Build.t32.H ≤ y.mag) ∧
    Holds2 (pos 0) (pos 0xFFFF) (fun x y => x.sgn = .pos ∧ y.sgn = .pos ∧ x.mag < 2 ^ Build.t32.H ∧
      y.mag < 2 ^ Build.t32.H ∧ Nat.gcd x.mag y.mag ≠ 1) := by decide
theorem witness_IsprimeVerdictOfDraws : Holds2 (pos 1) (pos 0x10000) (fun x y => x.sgn = .pos ∧ 1 ≤ x.mag ∧
      x.mag ≤ 2 ^ Build.t32.H ∧ y.mag ≤ 2 ^ Build.t32.H ∧ x.mag = 1 ∧ y.mag ≠ 1) ∧
    Holds2 (pos 27) (pos 2) (fun x y => x.mag ≠ 1 ∧ 13 % 2 = 1 ∧ x.mag - 1 = 13 * 2 ^ 1 ∧ y.mag - 1 = 1 * 2 ^ 0) := by decide
theorem witness_IsprimeVerdictOfDraws_draws : drawList 1 26 1 ⟨[26, 2], 0⟩ = [26] ∧ Passing 27 1 13 26 ∧
    ((rngAfter 1 26 1 ⟨[26, 2], 0⟩).draw 1 26).1 = 2 ∧ ¬ Passing 27 1 13 2 := by
  refine ⟨by decide, .inr ⟨0, by decide, by decide⟩, by decide, ?_⟩
  rintro (h | ⟨j, hj, h⟩)
  · revert h
    decide
  · interval_cases j
    revert h
    decide
theorem witness_IsprimeNeverRejectsPrimes : live (regs3 (pos 65521) (pos 2) (pos 0)) (.g 1) = true ∧
    (cell (regs3 (pos 65521) (pos 2) (pos 0)) (.g 1)).sgn = .pos ∧
    (cell (regs3 (pos 65521) (pos 2) (pos 0)) (.g 1)).mag ≤ 2 ^ Build.t32.H ∧
    Nat.Prime (cell (regs3 (pos 65521) (pos 2) (pos 0)) (.g 1)).mag ∧ Nat.Prime (cell (regs3 (pos 65521) (pos 2) (pos 0)) (.g 2)).mag :=
  ⟨rfl, rfl, by decide, show Nat.Prime 65521 by norm_num, Nat.prime_two⟩
theorem witness_IsprimeStopsOutsidePreconditions : (cell (regs3 (neg 7) (pos 0) (pos 0)) (.g 1)).sgn = .neg ∧
    (cell (regs3 (pos 0) (pos 0) (pos 0)) (.g 1)).mag = 0 ∧ 2 ^ Build.t32.H < (cell (regs3 (pos 0x10001) (pos 0) (pos 0)) (.g 1)).mag := by
  decide
theorem witness_LoadvLoadsConstant : ∃ s : State, s.build.Wf ∧ Operand.wf s.build (.s 1) = true ∧ live s (.s 1) = true ∧
    (neg 0xFFFFFFFF).mag < 2 ^ s.build.W ∧ s.actions = loadV s.build (.s 1) (neg 0xFFFFFFFF) ++ [.csrRead 1] :=
  ⟨{ full with actions := loadV capped (.s 1) (neg 0xFFFFFFFF) ++ [.csrRead 1] }, by decide, rfl, rfl, by decide, rfl⟩
theorem witness_ReadvReturnsValue : ∃ s : State, s.build.Wf ∧ Operand.wf s.build (.g 15) = true ∧ live s (.g 15) = true ∧
    s.actions = readV s.build (.g 15) ++ [.reset] :=
  ⟨{ full with actions := readV capped (.g 15) ++ [.reset] }, by decide, rfl, rfl, rfl⟩

end Sys2Proof.Tests
end

/-! SUPPORT. What an outcome's next state meets: a predicate of outcomes, with one rule for each operation the meanings
are built from, so that a meaning's property is read off its own text. -/

namespace Sys2Proof.Machine

/-- If the outcome is a next state, it meets `P`; a stop meets every `P`. -/
def NextMeets (P : State → Prop) (o : Out) : Prop := ∀ t, o = .next t → P t

namespace NextMeets

variable {P : State → Prop} {s t : State} {a : Operand}

theorem next (h : P t) : NextMeets P (.next t) := by
  intro u hu
  cases hu
  exact h

theorem fault (f : Fault) : NextMeets P (.fault f) := by
  intro u hu
  cases hu

theorem withLive {k : Out} (hk : live s a = true → NextMeets P k) : NextMeets P (withLive s a k) := by
  intro t ht
  obtain ⟨ha, hnext⟩ := withLive_next ht
  exact hk ha t hnext

theorem withCell {p : Part} {k : Value → State → Out}
    (hk : live s a = true → NextMeets P (k (cell s a) (noteRead s p a))) : NextMeets P (withCell s p a k) :=
  withLive hk

theorem ite {c : Prop} [Decidable c] {x y : Out} (hx : c → NextMeets P x) (hy : ¬ c → NextMeets P y) :
    NextMeets P (if c then x else y) := by
  by_cases hc : c
  · rw [if_pos hc]
    exact hx hc
  · rw [if_neg hc]
    exact hy hc

/-- A precondition whose violation stops the command. -/
theorem guard {c : Prop} [Decidable c] {f : Fault} {x : Out} (hx : ¬ c → NextMeets P x) :
    NextMeets P (if c then .fault f else x) :=
  ite (fun _ => fault f) hx

/-- `XEUC` goes on only with live operands and a pair from `SOLVE` (R190). -/
theorem execXeuc {b : Operand}
    (hk : live s a = true → live s b = true → ∀ st, solve s.build (cell s a) (cell s b) = .ok st →
      P (setCell (setCell (noteRead (noteRead s .whole a) .whole b) a (valueOfInt st.1)) b (valueOfInt st.2))) :
    NextMeets P (execXeuc a b s) := by
  refine withCell fun ha => withCell fun hb => ?_
  simp only [cell_noteRead, noteRead_build]
  split
  · exact next (hk ha hb _ ‹_›)
  · exact fault _

/-- `INVMOD` goes on only with live operands, a pair from `SOLVE` and a modulus that is not 0 (R192). -/
theorem execInvmod {b : Operand}
    (hk : live s a = true → live s b = true → ∀ st, solve s.build (cell s a) (cell s b) = .ok st → (cell s b).mag ≠ 0 →
      P (setCell (noteRead (noteRead s .whole a) .whole b) a (modV s.build (valueOfInt st.1) (cell s b)))) :
    NextMeets P (execInvmod a b s) := by
  refine withCell fun ha => withCell fun hb => ?_
  simp only [cell_noteRead, noteRead_build]
  split
  · exact guard fun hm => next (hk ha hb _ ‹_› hm)
  · exact fault _

end NextMeets

end Sys2Proof.Machine

/-! SUPPORT. The commands' frames: what each update leaves alone, and from it what every command that is no arena
command does. -/

namespace Sys2Proof.Machine

theorem frame_setT (s : State) (v : Bool) : Frame [] s (setT v s) := by
  constructor <;> intros <;> simp

theorem frame_noteWhole (s : State) (o : Operand) : Frame [] s (noteWhole s o) := by
  constructor <;> intros <;> simp

theorem frame_noteBlock (s : State) (o : Operand) (j : Nat) : Frame [] s (noteBlock s o j) := by
  constructor <;> intros <;> simp

theorem frame_noteSign (s : State) (o : Operand) : Frame [] s (noteSign s o) := by
  constructor <;> intros <;> simp

theorem frame_dout (s : State) (d : Word) : Frame [] s { s with dout := d } := by
  constructor <;> intros <;> rfl

theorem frame_rng (s : State) (g : Rng) : Frame [] s { s with rng := g } := by
  constructor <;> intros <;> rfl

/-- A read adds nothing to the frame of what follows it. -/
theorem NextMeets.frame_withCell {ds : List Operand} {s : State} {a : Operand} {p : Part} {k : Value → State → Out}
    (hk : ∀ x u, NextMeets (Frame ds u) (k x u)) : NextMeets (Frame ds s) (Machine.withCell s p a k) :=
  .withCell fun _ t ht => (frame_noteRead s p a).trans (hk _ _ t ht)

/-- A command that is neither an arena command nor `CLRST` changes, of the machine its frame speaks of, no more than its
destinations (R10, R24, R185). -/
theorem exec_frame {i : Instr} (harena : isArena i = false) (hclrst : i ≠ .clrst) (s : State) :
    NextMeets (Frame (dests i) s) (exec i s) := by
  cases i with
  | ldz a => exact .withLive fun _ => .next ((frame_setCell ..).trans (frame_noteWhole ..))
  | ldo a => exact .withLive fun _ => .next ((frame_setCell ..).trans (frame_noteWhole ..))
  | mov a b =>
    exact .withLive fun _ => .frame_withCell fun _ _ => .next ((frame_setCell ..).trans (frame_noteWhole ..))
  | wrb a j => exact .withLive fun _ => .next ((frame_setCell ..).trans (frame_noteBlock ..))
  | rdb a j => exact .frame_withCell fun _ _ => .next (frame_dout ..)
  | setsgn a sb => exact .withLive fun _ => .next ((frame_setCell ..).trans (frame_noteSign ..))
  | getsgn a => exact .frame_withCell fun _ _ => .next (frame_setT ..)
  | add a b => exact .frame_withCell fun _ _ => .frame_withCell fun _ _ => .next (frame_setCell ..)
  | sub a b => exact .frame_withCell fun _ _ => .frame_withCell fun _ _ => .next (frame_setCell ..)
  | abssub a b =>
    exact .frame_withCell fun _ _ => .frame_withCell fun _ _ => .guard fun _ => .next (frame_setCell ..)
  | mul a b => exact .frame_withCell fun _ _ => .frame_withCell fun _ _ => .next (frame_setCell ..)
  | mod a b =>
    exact .frame_withCell fun _ _ => .frame_withCell fun _ _ => .guard fun _ => .next (frame_setCell ..)
  | div a b =>
    exact .frame_withCell fun _ _ => .frame_withCell fun _ _ => .guard fun _ => .next (frame_setCell ..)
  | powmod a b c =>
    exact .frame_withCell fun _ _ => .frame_withCell fun _ _ => .frame_withCell fun _ _ =>
      .guard fun _ => .guard fun _ => .next (frame_setCell ..)
  | shl a n => exact .frame_withCell fun _ _ => .next (frame_setCell ..)
  | shr a n => exact .frame_withCell fun _ _ => .next (frame_setCell ..)
  | absgt a b => exact .frame_withCell fun _ _ => .frame_withCell fun _ _ => .next (frame_setT ..)
  | absge a b => exact .frame_withCell fun _ _ => .frame_withCell fun _ _ => .next (frame_setT ..)
  | getbit a p => exact .frame_withCell fun _ _ => .next (frame_setT ..)
  | setbit a p => exact .frame_withCell fun _ _ => .next (frame_setCell ..)
  | randomize a nb =>
    exact .frame_withCell fun _ u => .next ((frame_rng u _).trans (frame_setCell ..))
  | xeuc a b =>
    exact .execXeuc fun _ _ _ _ => (frame_noteRead ..).trans <| (frame_noteRead ..).trans <|
      (frame_setCell ..).trans (frame_setCell ..)
  | invmod a b =>
    exact .execInvmod fun _ _ _ _ _ => (frame_noteRead ..).trans <| (frame_noteRead ..).trans (frame_setCell ..)
  | isprime a acc =>
    exact .frame_withCell fun _ u => .guard fun _ => .next ((frame_rng u _).trans (frame_setT ..))
  | aopen | aget | aclose => cases harena
  | clrst => exact absurd rfl hclrst

end Sys2Proof.Machine

/-! SUPPORT. A decoded command is legal in its build (R95), format by format. -/

namespace Sys2Proof

variable {b : Build} {w : Word} {i : Instr}

theorem withOperand_ok {x : Byte} {k : Operand → Decoded} (h : withOperand b x k = .ok i) :
    ∃ o, decodeOperand b x = some o ∧ o.wf b = true ∧ k o = .ok i := by
  unfold withOperand at h
  split at h
  · exact ⟨_, ‹_›, (spec_of_decodeOperand ‹_›).1, h⟩
  · cases h

theorem wf_of_decodeZ {j : Instr} (h : decodeZ w j = .ok i) (hj : j.wf b = true) : i.wf b = true := by
  unfold decodeZ at h
  split at h <;> cases h
  exact hj

theorem wf_of_decodeR1 {k : Operand → Instr} (h : decodeR1 b w k = .ok i)
    (hk : ∀ x, x.wf b = true → (k x).wf b = true) : i.wf b = true := by
  unfold decodeR1 at h
  split at h
  · obtain ⟨x, -, hx, hi⟩ := withOperand_ok h
    cases hi
    exact hk x hx
  · cases h

theorem wf_of_decodeR2 {k : Operand → Operand → Decoded} (h : decodeR2 b w k = .ok i)
    (hk : ∀ x y, (x.wf b && y.wf b) = true → k x y = .ok i → i.wf b = true) : i.wf b = true := by
  unfold decodeR2 at h
  split at h
  · obtain ⟨x, -, hx, h⟩ := withOperand_ok h
    obtain ⟨y, -, hy, h⟩ := withOperand_ok h
    exact hk x y (by rw [hx, hy]; rfl) h
  · cases h

/-- Format `R2` with no further test. -/
theorem wf_of_decodeR2_ok {k : Operand → Operand → Instr} (h : decodeR2 b w (fun x y => .ok (k x y)) = .ok i)
    (hk : ∀ x y, (x.wf b && y.wf b) = true → (k x y).wf b = true) : i.wf b = true := by
  refine wf_of_decodeR2 h fun x y hxy hi => ?_
  cases hi
  exact hk x y hxy

theorem wf_of_decodeR3 {k : Operand → Operand → Operand → Instr} (h : decodeR3 b w k = .ok i)
    (hk : ∀ x y z, (x.wf b && y.wf b && z.wf b) = true → (k x y z).wf b = true) : i.wf b = true := by
  obtain ⟨x, -, hx, h⟩ := withOperand_ok h
  obtain ⟨y, -, hy, h⟩ := withOperand_ok h
  obtain ⟨z, -, hz, h⟩ := withOperand_ok h
  cases h
  exact hk x y z (by rw [hx, hy, hz]; rfl)

theorem wf_of_decodeRI {inRange : Nat → Bool} {k : Operand → Imm16 → Instr} (h : decodeRI b w inRange k = .ok i)
    (hk : ∀ x n, (x.wf b && inRange n.toNat) = true → (k x n).wf b = true) : i.wf b = true := by
  obtain ⟨x, -, hx, h⟩ := withOperand_ok h
  split at h
  · rename_i hn
    cases h
    exact hk x _ (by rw [hx, hn]; rfl)
  · cases h

/-- Format `RI` where every immediate, or every one the test lets through, is legal. -/
theorem wf_of_decodeRI_any {inRange : Nat → Bool} {k : Operand → Imm16 → Instr} (h : decodeRI b w inRange k = .ok i)
    (hk : ∀ x n, x.wf b = true → (k x n).wf b = true) : i.wf b = true :=
  wf_of_decodeRI h fun x n hx => hk x n (Bool.and_eq_true_iff.1 hx).1

theorem wf_of_decodeXeuc {x y : Operand} (h : decodeXeuc x y = .ok i) (hxy : (x.wf b && y.wf b) = true) :
    i.wf b = true := by
  unfold decodeXeuc at h
  split at h <;> cases h
  exact Bool.and_eq_true_iff.2 ⟨hxy, decide_eq_true ‹_›⟩

/-- R95: what decodes is legal in the build. -/
theorem wellFormed_of_decode (h : decode b w = .ok i) : WellFormed b i := by
  unfold decode at h
  split at h
  -- LDZ, LDO, GETSGN
  case h_1 | h_2 | h_7 => exact wf_of_decodeR1 h fun _ hx => hx
  -- WRB, RDB, GETBIT, SETBIT, RANDOMIZE
  case h_4 | h_5 | h_19 | h_20 | h_21 => exact wf_of_decodeRI h fun _ _ hx => hx
  -- SETSGN, SHL, SHR, ISPRIME
  case h_6 | h_15 | h_16 | h_27 => exact wf_of_decodeRI_any h fun _ _ hx => hx
  -- POWMOD
  case h_14 => exact wf_of_decodeR3 h fun _ _ _ hx => hx
  -- AOPEN, AGET, ACLOSE, CLRST
  case h_22 | h_23 | h_24 | h_28 => exact wf_of_decodeZ h rfl
  -- XEUC
  case h_25 => exact wf_of_decodeR2 h fun _ _ hxy hi => wf_of_decodeXeuc hi hxy
  -- an opcode outside the table
  case h_29 => cases h
  -- the other commands of format R2
  all_goals exact wf_of_decodeR2_ok h fun _ _ hxy => hxy

end Sys2Proof

/-! SUPPORT. The invariant under every update of the state, and under every command. -/

namespace Sys2Proof.Machine

/-- A number below `2 ^ B` stays one in a 32-bit CSR (R36). -/
theorem ofNat_lt {n B : Nat} (hn : n < 2 ^ B) : (BitVec.ofNat 32 n).toNat < 2 ^ B :=
  (BitVec.toNat_ofNat n 32).trans_lt ((Nat.mod_le _ _).trans_lt hn)

theorem marksBelow_succ {top : Nat} {l : List Nat} (h : MarksBelow top l) : MarksBelow (top + 1) l := by
  cases l with
  | nil => trivial
  | cons m rest =>
    obtain ⟨hm, hrest⟩ := h
    exact ⟨Nat.le_succ_of_le hm, hrest⟩

namespace Inv

variable {s t : State} {o : Operand}

/-- The invariant speaks of these fields only. -/
theorem congr (h : Inv s) (hbuild : t.build = s.build) (hregs : t.regs = s.regs) (hwritten : t.written = s.written)
    (hslots : t.slots = s.slots) (hatop : t.atop = s.atop) (hmarks : t.marks = s.marks) (hdin : t.din = s.din)
    (hdout : t.dout = s.dout) : Inv t := by
  obtain ⟨⟩ := s
  obtain ⟨⟩ := t
  subst hbuild hregs hwritten hslots hatop hmarks hdin hdout
  exact { h with }

theorem noteRead (h : Inv s) (p : Part) (o : Operand) : Inv (noteRead s p o) :=
  h.congr rfl rfl rfl rfl rfl rfl rfl rfl

theorem setT (h : Inv s) (v : Bool) : Inv (setT v s) := h.congr rfl rfl rfl rfl rfl rfl rfl rfl

theorem clearSticky (h : Inv s) : Inv (clearSticky s) := h.congr rfl rfl rfl rfl rfl rfl rfl rfl

theorem raise (h : Inv s) (c : Condition) : Inv (raise c s) := by
  cases c <;> exact h.congr rfl rfl rfl rfl rfl rfl rfl rfl

theorem setRng (h : Inv s) (g : Rng) : Inv { s with rng := g } := h.congr rfl rfl rfl rfl rfl rfl rfl rfl

theorem setActions (h : Inv s) (l : List HostAction) : Inv { s with actions := l } :=
  h.congr rfl rfl rfl rfl rfl rfl rfl rfl

theorem csrRead (h : Inv s) (n : Fin 8) : Inv (csrRead n s) := h.congr rfl rfl rfl rfl rfl rfl rfl rfl

/-- Every cell an operand names fits `W` bits (R22). -/
theorem cell_mag_lt (h : Inv s) (o : Operand) : (cell s o).mag < 2 ^ s.build.W := by
  cases o with
  | g r => exact h.regs r
  | s k =>
    by_cases hk : k.val < s.slots.length
    · exact h.slots _ (by simp [cell, slotAt, hk])
    · simp [cell, slotAt, hk, Value.zero]

theorem setCell (h : Inv s) (ho : live s o = true) {v : Value} (hv : v.mag < 2 ^ s.build.W) : Inv (setCell s o v) := by
  have hcell (p : Operand) : (cell (Machine.setCell s o v) p).mag < 2 ^ s.build.W := by
    by_cases hp : p = o
    · rw [hp, cell_setCell_same]
      exact hv
    · rw [cell_setCell_ne s v hp]
      exact h.cell_mag_lt p
  cases o with
  | g r => exact { h with regs := fun q => hcell (.g q) }
  | s k =>
    refine { h with slots := fun w hw => ?_, held := ?_ }
    · rcases mem_slotPut hw with rfl | hw | rfl
      · exact hv
      · exact h.slots w hw
      · exact Nat.two_pow_pos _
    · have hk : k.val < s.atop := of_decide_eq_true ho
      have hlen := length_slotPut s.slots k v
      rw [h.held] at hlen
      exact hlen.trans (Nat.max_eq_left hk)

theorem setWritten (h : Inv s) (r : Fin 16) {w : Written} (hw : w.blocks.length = s.build.N) :
    Inv { s with written := s.written.set r w } := by
  refine { h with written := fun q => ?_ }
  by_cases hq : r = q
  · subst hq
    simpa using hw
  · have hne : r.val ≠ q.val := fun e => hq (Fin.ext e)
    simpa [hne] using h.written q

theorem noteWhole (h : Inv s) (o : Operand) : Inv (noteWhole s o) := by
  cases o with
  | g r => exact h.setWritten r List.length_replicate
  | s k => exact h

theorem noteBlock (h : Inv s) (o : Operand) (j : Nat) : Inv (noteBlock s o j) := by
  cases o with
  | g r => exact h.setWritten r (List.length_set.trans (h.written r))
  | s k => exact h

theorem noteSign (h : Inv s) (o : Operand) : Inv (noteSign s o) := by
  cases o with
  | g r => exact h.setWritten r (h.written r)
  | s k => exact h

theorem setDout (h : Inv s) {n : Nat} (hn : n < 2 ^ s.build.B) : Inv { s with dout := BitVec.ofNat 32 n } :=
  { h with dout := ofNat_lt hn }

theorem writeDin (h : Inv s) (w : Word) : Inv (writeDin w s) :=
  { h with din := ofNat_lt (Nat.mod_lt _ (Nat.two_pow_pos _)) }

theorem csrWrite (h : Inv s) (n : Fin 8) (w : Word) : Inv (csrWrite n w s) := by
  unfold Machine.csrWrite
  split
  · exact h.writeDin w
  · exact h

/-- R43: the reset state of a legal build. -/
theorem resetFor {b : Build} (hb : b.Wf) : Inv (State.resetFor b) where
  build := hb
  regs r := by simpa [State.resetFor, resetCell, Value.one] using one_lt_two_pow_W hb
  slots v hv := absurd hv List.not_mem_nil
  held := rfl
  marks := trivial
  arenaCap c _ := Nat.zero_le c
  markCap c _ := Nat.zero_le c
  din := Nat.two_pow_pos _
  dout := Nat.two_pow_pos _
  written r := by simp [State.resetFor, Written.none]

theorem doReset (h : Inv s) : Inv (doReset s) :=
  (resetFor h.build).congr rfl rfl rfl rfl rfl rfl rfl rfl

/-- R180: the mark pushed is `ATOP` itself, and the stack was not full. -/
theorem execAopen (h : Inv s) : NextMeets Inv (execAopen s) := by
  refine .next ?_
  split
  · exact h.raise .afull
  · rename_i hfull
    refine { h with marks := ⟨Nat.le_refl _, h.marks⟩, markCap := fun c hc => ?_ }
    have hne : s.marks.length ≠ c := fun e => hfull (hc.trans (congrArg some e.symm))
    exact Nat.lt_of_le_of_ne (h.markCap c hc) hne

/-- R181: the slot handed out is the next one, `ZERO`, and the arena was not full. -/
theorem execAget (h : Inv s) : NextMeets Inv (execAget s) := by
  refine .next ?_
  split
  · exact h.raise .afull
  · rename_i hfull
    refine { h with slots := fun w hw => ?_, held := ?_, marks := marksBelow_succ h.marks, arenaCap := fun c hc => ?_ }
    · rcases mem_slotPut hw with rfl | hw | rfl
      · exact Nat.two_pow_pos _
      · exact h.slots w hw
      · exact Nat.two_pow_pos _
    · have hlen := length_slotPut s.slots s.atop .zero
      rw [h.held] at hlen
      exact hlen.trans (Nat.max_eq_right (Nat.le_succ _))
    · have hne : s.atop ≠ c := fun e => hfull (hc.trans (congrArg some e.symm))
      exact Nat.lt_of_le_of_ne (h.arenaCap c hc) hne

/-- R182: the mark popped is at most `ATOP`, and the marks under it at most the mark. -/
theorem execAclose (h : Inv s) : NextMeets Inv (execAclose s) := by
  refine .next ?_
  split
  · exact h.raise .aerr
  · rename_i m rest hmarks
    have hbelow := h.marks
    rw [hmarks] at hbelow
    obtain ⟨hm, hrest⟩ := hbelow
    refine { h with
      slots := fun w hw => h.slots w (List.mem_of_mem_take hw)
      held := ?_
      marks := hrest
      arenaCap := fun c hc => hm.trans (h.arenaCap c hc)
      markCap := fun c hc => ?_ }
    · rw [List.length_take, h.held]
      exact Nat.min_eq_left hm
    · have hlen := h.markCap c hc
      rw [hmarks] at hlen
      exact (Nat.le_succ _).trans hlen

end Inv

end Sys2Proof.Machine

/-! SUPPORT and the obligations O11 and O10. The widths of what SETBIT, RANDOMIZE, RDB and the Euclidean unit write,
then the invariant under every legal command and so under every step. -/

namespace Sys2Proof.Machine

@[simp] theorem mag_valueOfInt (z : Int) : (valueOfInt z).mag = z.natAbs := rfl

theorem setBitPos_mag_lt {b : Build} {v : Value} {p : Nat} (hp : p < b.W) (hv : v.mag < 2 ^ b.W) :
    (setBitPos b v p).mag < 2 ^ b.W :=
  Nat.or_lt_two_pow hv (Nat.pow_lt_pow_right (by norm_num) (by omega))

theorem blk_lt (b : Build) (v : Value) (j : Nat) : blk b v j < 2 ^ b.B := Nat.mod_lt _ (Nat.two_pow_pos _)

/-- The bits `RANDOMIZE` fills lie within the value when it names no more blocks than there are (R85). -/
theorem bits_blocks_lt {b : Build} {nb : Nat} (h : nb ≤ b.N) (g : Rng) : (g.bits (nb * b.B)).1 < 2 ^ b.W :=
  (bits_lt _ g).trans_le (Nat.pow_le_pow_right (by norm_num) (Nat.mul_le_mul_right _ h))

/-- Every legal command keeps the invariant. Legality matters: the block count of `RANDOMIZE` and the position of
`SETBIT` must be in range. -/
theorem Inv.exec {s : State} (h : Inv s) {i : Instr} (hi : WellFormed s.build i) : NextMeets Inv (exec i s) := by
  unfold Machine.exec
  cases i with
  | ldz a => exact .withLive fun ha => .next ((h.setCell ha (Nat.two_pow_pos _)).noteWhole a)
  | ldo a => exact .withLive fun ha => .next ((h.setCell ha (one_lt_two_pow_W h.build)).noteWhole a)
  | mov a b =>
    exact .withLive fun ha => .withCell fun _ => .next (((h.noteRead _ _).setCell ha (h.cell_mag_lt b)).noteWhole a)
  | wrb a j =>
    exact .withLive fun ha => .next ((h.setCell ha (setBlk_mag_lt h.build (h.cell_mag_lt a) _ _)).noteBlock a _)
  | rdb a j => exact .withCell fun _ => .next ((h.noteRead _ _).setDout (blk_lt _ _ _))
  | setsgn a sb =>
    exact .withLive fun ha => .next ((h.setCell (v := ⟨sb, _⟩) ha (h.cell_mag_lt a)).noteSign a)
  | getsgn a => exact .withCell fun _ => .next ((h.noteRead _ _).setT _)
  | add a b =>
    exact .withCell fun ha => .withCell fun _ => .next (((h.noteRead _ _).noteRead _ _).setCell ha
      (addV_mag_lt (h.cell_mag_lt a) (h.cell_mag_lt b)))
  | sub a b =>
    exact .withCell fun ha => .withCell fun _ => .next (((h.noteRead _ _).noteRead _ _).setCell ha
      (subV_mag_lt (h.cell_mag_lt a) (h.cell_mag_lt b)))
  | abssub a b =>
    exact .withCell fun ha => .withCell fun _ => .guard fun _ => .next (((h.noteRead _ _).noteRead _ _).setCell ha
      ((Nat.sub_le _ _).trans_lt (h.cell_mag_lt a)))
  | mul a b =>
    exact .withCell fun ha => .withCell fun _ => .next (((h.noteRead _ _).noteRead _ _).setCell ha
      (mulV_mag_lt h.build _ _))
  | mod a b =>
    exact .withCell fun ha => .withCell fun _ => .guard fun hm => .next (((h.noteRead _ _).noteRead _ _).setCell ha
      (modV_mag_lt (h.cell_mag_lt b) hm))
  | div a b =>
    exact .withCell fun ha => .withCell fun _ => .guard fun _ => .next (((h.noteRead _ _).noteRead _ _).setCell ha
      ((divV_mag_le _ _).trans_lt (h.cell_mag_lt a)))
  | powmod a b c =>
    exact .withCell fun ha => .withCell fun _ => .withCell fun _ => .guard fun hm => .guard fun hH =>
      .next ((((h.noteRead _ _).noteRead _ _).noteRead _ _).setCell ha
        (powModV_mag_lt h.build hm (Nat.le_of_not_lt hH) (h.cell_mag_lt b)))
  | shl a n =>
    exact .withCell fun ha => .next ((h.noteRead _ _).setCell ha (Nat.mod_lt _ (Nat.two_pow_pos _)))
  | shr a n =>
    exact .withCell fun ha => .next ((h.noteRead _ _).setCell ha ((Nat.div_le_self _ _).trans_lt (h.cell_mag_lt a)))
  | absgt a b => exact .withCell fun _ => .withCell fun _ => .next (((h.noteRead _ _).noteRead _ _).setT _)
  | absge a b => exact .withCell fun _ => .withCell fun _ => .next (((h.noteRead _ _).noteRead _ _).setT _)
  | getbit a p => exact .withCell fun _ => .next ((h.noteRead _ _).setT _)
  | setbit a p =>
    have hp : p.toNat < s.build.W := of_decide_eq_true (Bool.and_eq_true_iff.1 hi).2
    exact .withCell fun ha => .next ((h.noteRead _ _).setCell ha (setBitPos_mag_lt hp (h.cell_mag_lt a)))
  | randomize a nb =>
    have hnb : nb.toNat ≤ s.build.N := of_decide_eq_true (Bool.and_eq_true_iff.1 hi).2
    exact .withCell fun ha => .next (((h.noteRead _ _).setRng _).setCell ha (bits_blocks_lt hnb s.rng))
  | aopen => exact h.execAopen
  | aget => exact h.execAget
  | aclose => exact h.execAclose
  | xeuc a b =>
    refine .execXeuc fun ha hb st hst => ?_
    obtain ⟨hs, ht⟩ := solve_bound h.build hst
    have hfirst := ((h.noteRead .whole a).noteRead .whole b).setCell (v := valueOfInt st.1) ha hs
    exact hfirst.setCell (v := valueOfInt st.2) (by simpa using hb) (by simpa using ht)
  | invmod a b =>
    exact .execInvmod fun ha _ _ _ hm => ((h.noteRead _ _).noteRead _ _).setCell ha
      (modV_mag_lt (h.cell_mag_lt b) hm)
  | isprime a acc => exact .withCell fun _ => .guard fun _ => .next (((h.noteRead _ _).setRng _).setT _)
  | clrst => exact .next h.clearSticky

/-- Settles O11: one lemma for each of the six things a step can do. -/
theorem stepKeepsInvariant : Obligations.StepKeepsInvariant := by
  intro s t h hstep
  rcases step_cases hstep with ⟨-, rfl⟩ | ⟨n, rest, -, rfl⟩ | ⟨n, w, rest, -, -, rfl⟩ | ⟨rest, -, rfl⟩ |
    ⟨w, rest, i, -, hdecode, hexec⟩ | ⟨w, rest, r, -, -, rfl⟩
  · exact h
  · exact (h.setActions rest).csrRead n
  · exact (h.setActions rest).csrWrite n w
  · exact (h.setActions rest).doReset
  · exact (h.setActions rest).exec (wellFormed_of_decode hdecode) t hexec
  · exact (h.setActions rest).raise .ill

/-- Settles O10, from the invariant of the reset state of any legal build. -/
theorem resetMeetsInvariant : Obligations.ResetMeetsInvariant :=
  ⟨fun _ hb => Inv.resetFor hb, Inv.resetFor (by decide)⟩

/-! SUPPORT and the obligations O20 and O12. The cells live before and after a command, for the arena commands too, and
the build. -/

/-- `t` has the `DIN`, the build and the host's side of `s`, and every cell outside `ds` live in both. -/
def KeepsLiveCells (ds : List Operand) (s t : State) : Prop :=
  (∀ o : Operand, o ∉ ds → live s o = true → live t o = true → cell t o = cell s o) ∧
    t.din = s.din ∧ t.build = s.build ∧ t.actions = s.actions ∧ t.replies = s.replies

theorem Frame.keepsLiveCells {ds : List Operand} {s t : State} (h : Frame ds s t) : KeepsLiveCells ds s t :=
  ⟨fun _ ho _ _ => h.cell ho, h.din, h.build, h.actions, h.replies⟩

/-- With the same registers, `DIN`, build and host's side, the slots live before and after are all there is to
compare. -/
theorem keepsLiveCells_of_slots {s t : State} (hregs : t.regs = s.regs) (hdin : t.din = s.din)
    (hbuild : t.build = s.build) (hactions : t.actions = s.actions) (hreplies : t.replies = s.replies)
    (hslots : ∀ k, k < s.atop → k < t.atop → slotAt t.slots k = slotAt s.slots k) : KeepsLiveCells [] s t := by
  refine ⟨fun o _ hs ht => ?_, hdin, hbuild, hactions, hreplies⟩
  cases o with
  | g r => exact congrArg (·[r]) hregs
  | s k => exact hslots k (of_decide_eq_true hs) (of_decide_eq_true ht)

theorem raise_keepsLiveCells (c : Condition) (s : State) : KeepsLiveCells [] s (raise c s) := by
  cases c <;> exact keepsLiveCells_of_slots rfl rfl rfl rfl rfl fun _ _ _ => rfl

theorem clearSticky_keepsLiveCells (s : State) : KeepsLiveCells [] s (clearSticky s) :=
  keepsLiveCells_of_slots rfl rfl rfl rfl rfl fun _ _ _ => rfl

theorem execAopen_keepsLiveCells (s : State) : NextMeets (KeepsLiveCells [] s) (execAopen s) := by
  refine .next ?_
  split
  · exact raise_keepsLiveCells .afull s
  · exact keepsLiveCells_of_slots rfl rfl rfl rfl rfl fun _ _ _ => rfl

/-- The slot `AGET` writes was dead. -/
theorem execAget_keepsLiveCells (s : State) : NextMeets (KeepsLiveCells [] s) (execAget s) := by
  refine .next ?_
  split
  · exact raise_keepsLiveCells .afull s
  · refine keepsLiveCells_of_slots rfl rfl rfl rfl rfl fun k hk _ => ?_
    rw [slotAt_slotPut, if_neg (Nat.ne_of_lt hk)]

/-- The slots `ACLOSE` drops are dead after it. -/
theorem execAclose_keepsLiveCells (s : State) : NextMeets (KeepsLiveCells [] s) (execAclose s) := by
  refine .next ?_
  split
  · exact raise_keepsLiveCells .aerr s
  · exact keepsLiveCells_of_slots rfl rfl rfl rfl rfl fun _ _ hk => slotAt_take hk

theorem exec_keepsLiveCells (i : Instr) (s : State) : NextMeets (KeepsLiveCells (dests i) s) (exec i s) := by
  have hother (harena : isArena i = false) (hclrst : i ≠ .clrst) :
      NextMeets (KeepsLiveCells (dests i) s) (exec i s) :=
    fun t ht => (exec_frame harena hclrst s t ht).keepsLiveCells
  cases i with
  | aopen => exact execAopen_keepsLiveCells s
  | aget => exact execAget_keepsLiveCells s
  | aclose => exact execAclose_keepsLiveCells s
  | clrst => exact .next (clearSticky_keepsLiveCells s)
  | _ => exact hother rfl nofun

/-- Settles O20: the frame of the commands outside the arena, and the arena commands one by one. -/
theorem commandsWriteOnlyTheirDestinations : Obligations.CommandsWriteOnlyTheirDestinations :=
  exec_keepsLiveCells

/-! The build (R5, R32). -/

theorem exec_build {i : Instr} {s t : State} (h : exec i s = .next t) : t.build = s.build := by
  obtain ⟨-, -, hbuild, -, -⟩ := exec_keepsLiveCells i s t h
  exact hbuild

@[simp] theorem csrWrite_build (n : Fin 8) (w : Word) (s : State) : (csrWrite n w s).build = s.build := by
  unfold csrWrite
  split <;> rfl

theorem step_build {s t : State} (h : step s = .next t) : t.build = s.build := by
  rcases step_cases h with ⟨-, rfl⟩ | ⟨n, rest, -, rfl⟩ | ⟨n, w, rest, -, -, rfl⟩ | ⟨rest, -, rfl⟩ |
    ⟨w, rest, i, -, -, hexec⟩ | ⟨w, rest, r, -, -, rfl⟩
  · rfl
  · rfl
  · exact csrWrite_build n w _
  · rfl
  · exact exec_build (s := { s with actions := rest }) hexec
  · rfl

/-- Settles O12: `CFG` is computed from the build alone. -/
theorem stepKeepsBuild : Obligations.StepKeepsBuild := fun _ _ h =>
  ⟨step_build h, congrArg cfgWord (step_build h)⟩

end Sys2Proof.Machine

/-! SUPPORT and the obligations O42, O40 and O41. Bit positions as bits of the magnitude, and what a
read followed by one write leaves alone. -/

namespace Sys2Proof.Machine

theorem bitPos_eq_testBit (b : Build) (v : Value) (p : Nat) : bitPos b v p = v.mag.testBit (b.W - 1 - p) := by
  rw [Nat.testBit_eq_decide_div_mod_eq]
  rfl

theorem testBit_blk {b : Build} {j k : Nat} (v : Value) (hk : k < b.B) :
    (blk b v j).testBit k = v.mag.testBit (blockShift b j + k) := by
  rw [blk, Nat.testBit_mod_two_pow, Nat.testBit_div_two_pow, decide_eq_true hk, Bool.true_and, Nat.add_comm]

/-- R62: position `p` counted from the top is place `B − 1 − (p mod B)` of block `p div B`. -/
theorem blockShift_add_place {b : Build} {p : Nat} (hp : p < b.W) :
    blockShift b (p / b.B) + (b.B - 1 - p % b.B) = b.W - 1 - p := by
  have hB : 0 < b.B := by
    rcases Nat.eq_zero_or_pos b.B with h0 | h0
    · simp [Build.W, h0] at hp
    · exact h0
  have hr : p % b.B < b.B := Nat.mod_lt _ hB
  have hq : p / b.B < b.N := Nat.div_lt_of_lt_mul (by rwa [Nat.mul_comm])
  obtain ⟨m, hm⟩ : ∃ m, b.N = p / b.B + 1 + m := Nat.exists_eq_add_of_le hq
  have hsplit : b.B * (p / b.B) + p % b.B = p := Nat.div_add_mod p b.B
  have hW : b.W = b.B * (p / b.B) + b.B + b.B * m := by rw [Build.W, hm]; ring
  have hshift : blockShift b (p / b.B) = b.B * m := by rw [blockShift, hm]; congr 1; omega
  omega

/-- Settles O42: both sides are the bit of weight `2 ^ (W − 1 − p)`. -/
theorem bitPositionsLieInBlocks : Obligations.BitPositionsLieInBlocks := by
  intro b v p hb hp
  obtain ⟨-, -, hB, -⟩ := hb
  rw [bitPos_eq_testBit, testBit_blk v (by omega), blockShift_add_place hp]

theorem onlyCells_noteRead (s : State) (p : Part) (o : Operand) : OnlyCells [] s (noteRead s p o) :=
  ⟨frame_noteRead s p o, rfl, rfl, rfl, fun _ _ => rfl⟩

theorem onlyCells_setCell (s : State) (o : Operand) (v : Value) : OnlyCells [o] s (setCell s o v) :=
  ⟨frame_setCell s o v, congrArg Status.t (setCell_status s o v), setCell_dout s o v, setCell_rng s o v,
    fun _ _ => by rw [setCell_written]⟩

theorem OnlyCells.trans {ds es : List Operand} {s t u : State} (h : OnlyCells ds s t) (h' : OnlyCells es t u) :
    OnlyCells (ds ++ es) s u where
  frame := h.frame.trans h'.frame
  keepsT := h'.keepsT.trans h.keepsT
  dout := h'.dout.trans h.dout
  rng := h'.rng.trans h.rng
  written r hr := (h'.written r hr).trans (h.written r hr)

/-- Reads and then a write of `T` are a command whose one result is `T`. -/
theorem OnlyCells.onlyT_setT {s t : State} (h : OnlyCells [] s t) (v : Bool) : OnlyT s (setT v t) where
  frame := h.frame.trans (frame_setT t v)
  dout := h.dout
  rng := h.rng
  written := h.written

theorem exec_getbit {s : State} {a : Operand} (p : Imm16) (ha : live s a = true) : exec (.getbit a p) s =
    .next (setT (bitPos s.build (cell s a) p.toNat) (noteRead s .whole a)) := by
  simp only [exec, execGetbit, withCell_of_live ha, noteRead_build]

theorem exec_setbit {s : State} {a : Operand} (p : Imm16) (ha : live s a = true) : exec (.setbit a p) s =
    .next (setCell (noteRead s .whole a) a (setBitPos s.build (cell s a) p.toNat)) := by
  simp only [exec, execSetbit, withCell_of_live ha, noteRead_build]

/-- Settles O40. -/
theorem getbitReadsPosition : Obligations.GetbitReadsPosition := by
  intro s a p ha _
  exact ⟨rfl, _, exec_getbit p ha, (onlyCells_noteRead s .whole a).onlyT_setT _, bitPos_eq_testBit ..⟩

/-- Setting a bit sets that bit only. -/
theorem testBit_setBitPos (b : Build) (v : Value) (p k : Nat) :
    (setBitPos b v p).mag.testBit k = (decide (k = b.W - 1 - p) || v.mag.testBit k) := by
  rw [setBitPos, Nat.testBit_or, Nat.testBit_two_pow, Bool.or_comm, decide_eq_decide.2 eq_comm]

/-- Settles O41. -/
theorem setbitSetsPosition : Obligations.SetbitSetsPosition := by
  intro s a p ha _
  refine ⟨rfl, _, exec_setbit p ha, (onlyCells_noteRead s .whole a).trans (onlyCells_setCell ..), ?_, fun k => ?_⟩
  · rw [cell_setCell_same, setBitPos]
  · rw [cell_setCell_same, testBit_setBitPos]

end Sys2Proof.Machine

/-! SUPPORT and the obligation O15. A command looks at the operands it names one after another, and the first dead one
stops it. -/

namespace Sys2Proof.Machine

/-- If one of the operands `l` is dead, the outcome is the fault of a dead slot among them. -/
def StopsOnDead (s : State) (l : List Operand) (out : Out) : Prop :=
  (∃ o ∈ l, live s o = false) → ∃ k : Fin 128, Operand.s k ∈ l ∧ s.atop ≤ k.val ∧ out = .fault (.deadSlot k.val)

namespace StopsOnDead

variable {s : State} {l : List Operand} {a : Operand}

theorem nil {out : Out} : StopsOnDead s [] out := by
  rintro ⟨o, ho, -⟩
  cases ho

/-- The first operand is dead, or one of those still to come. -/
theorem withLive {out : Out} (h : StopsOnDead s l out) : StopsOnDead s (a :: l) (withLive s a out) := by
  rintro ⟨o, ho, hdead⟩
  cases ha : live s a with
  | true =>
    have hne : o ≠ a := by
      rintro rfl
      exact Bool.false_ne_true (hdead.symm.trans ha)
    obtain ⟨k, hk, hatop, hout⟩ := h ⟨o, List.mem_of_ne_of_mem hne ho, hdead⟩
    exact ⟨k, List.mem_cons_of_mem a hk, hatop, (withLive_of_live ha out).trans hout⟩
  | false =>
    cases a with
    | g r => cases ha
    | s k => exact ⟨k, List.mem_cons_self, Nat.le_of_not_lt (of_decide_eq_false ha), withLive_of_dead ha out⟩

/-- Recording the read makes no operand live or dead. -/
theorem withCell {p : Part} {k : Value → State → Out} (h : ∀ x u, StopsOnDead u l (k x u)) :
    StopsOnDead s (a :: l) (withCell s p a k) :=
  withLive (by simpa [StopsOnDead] using h (cell s a) (noteRead s p a))

end StopsOnDead

theorem exec_stopsOnDead (i : Instr) (s : State) : StopsOnDead s (named i) (exec i s) := by
  unfold named exec
  cases i with
  | ldz | ldo | wrb | setsgn => exact .withLive .nil
  | mov => exact .withLive (.withCell fun _ _ => .nil)
  | rdb | getsgn | shl | shr | getbit | setbit | randomize | isprime => exact .withCell fun _ _ => .nil
  | add | sub | abssub | mul | mod | div | absgt | absge | xeuc | invmod =>
    exact .withCell fun _ _ => .withCell fun _ _ => .nil
  | powmod => exact .withCell fun _ _ => .withCell fun _ _ => .withCell fun _ _ => .nil
  | aopen | aget | aclose | clrst => exact .nil

/-- Settles O15: every command takes its operands in field order, before anything else. -/
theorem deadSlotStopsEveryCommand : Obligations.DeadSlotStopsEveryCommand :=
  exec_stopsOnDead

end Sys2Proof.Machine

/-! SUPPORT and the obligations O17 and O18. What each command does to `STATUS` (R33). -/

namespace Sys2Proof.Machine

@[simp] theorem blkWrite_eq_setCell (s : State) (o : Operand) (j d : Nat) :
    blkWrite s o j d = setCell s o (setBlk s.build (cell s o) j d) := rfl

/-- R180, R184. -/
theorem execAopen_status (s : State) : NextMeets (fun t => t.status =
    if s.build.markCap = some s.marks.length then { s.status with afull := true } else s.status) (execAopen s) := by
  refine .next ?_
  split <;> rfl

/-- R181, R184. -/
theorem execAget_status (s : State) : NextMeets (fun t => t.status =
    if s.build.arenaCap = some s.atop then { s.status with afull := true } else s.status) (execAget s) := by
  refine .next ?_
  split <;> rfl

/-- R182, R222. -/
theorem execAclose_status (s : State) : NextMeets (fun t => t.status =
    if s.marks = [] then { s.status with aerr := true } else s.status) (execAclose s) := by
  refine .next ?_
  split <;> simp [*]

/-- A command that does not write `T`, is no arena command and not `CLRST` leaves all of `STATUS`. -/
theorem exec_status {i : Instr} (hT : writesT i = false) (harena : isArena i = false) (hclrst : i ≠ .clrst)
    (s : State) : NextMeets (fun t => t.status = s.status) (exec i s) := by
  unfold exec
  cases i with
  | ldz | ldo | wrb | setsgn => exact .withLive fun _ => .next (by simp)
  | mov => exact .withLive fun _ => .withCell fun _ => .next (by simp)
  | rdb | shl | shr | setbit | randomize => exact .withCell fun _ => .next (by simp)
  | add | sub | mul => exact .withCell fun _ => .withCell fun _ => .next (by simp)
  | abssub | mod | div => exact .withCell fun _ => .withCell fun _ => .guard fun _ => .next (by simp)
  | powmod =>
    exact .withCell fun _ => .withCell fun _ => .withCell fun _ => .guard fun _ => .guard fun _ => .next (by simp)
  | xeuc => exact .execXeuc fun _ _ _ _ => by simp
  | invmod => exact .execInvmod fun _ _ _ _ _ => by simp
  | absgt | absge | getbit | getsgn | isprime => cases hT
  | aopen | aget | aclose => cases harena
  | clrst => exact absurd rfl hclrst

/-- Settles O17: the arena commands and `CLRST` write sticky flags only, the other commands no flag. -/
theorem onlyFiveCommandsWriteT : Obligations.OnlyFiveCommandsWriteT := by
  intro i s t h hT
  have hother (harena : isArena i = false) (hclrst : i ≠ .clrst) : t.status.t = s.status.t :=
    congrArg Status.t (exec_status hT harena hclrst s t h)
  cases i with
  | aopen => rw [execAopen_status s t h]; split <;> rfl
  | aget => rw [execAget_status s t h]; split <;> rfl
  | aclose => rw [execAclose_status s t h]; split <;> rfl
  | clrst => cases h; rfl
  | _ => exact hother rfl nofun

/-- Settles O18: the frame of the commands outside the arena, and the arena commands one by one. -/
theorem stickyFlagsChangeAsListed : Obligations.StickyFlagsChangeAsListed := by
  intro i s t h
  cases i with
  | clrst => cases h; exact ⟨fun _ => ⟨rfl, rfl, rfl⟩, fun hne => absurd rfl hne⟩
  | aopen => rw [execAopen_status s t h]; split <;> simp [*]
  | aget => rw [execAget_status s t h]; split <;> simp [*]
  | aclose => rw [execAclose_status s t h]; split <;> simp [*]
  | _ =>
    have hframe := exec_frame rfl (by nofun) s t h
    simp [hframe.aerr, hframe.ill, hframe.afull]

end Sys2Proof.Machine

/-! SUPPORT and the obligation O21. The record of unwritten reads, read by read (R44, log entries 2 and 3). -/

namespace Sys2Proof.Machine

/-- Between `s` and `t` the record of unwritten reads took exactly the reads `l` into account. -/
def RecordsReads (l : List (Part × Operand)) (s t : State) : Prop :=
  t.record.unwritten = (s.record.unwritten || l.any fun p => !wasWritten s p.1 p.2)

namespace RecordsReads

variable {l : List (Part × Operand)} {s t : State} {p : Part} {a : Operand}

theorem nil (h : t.record.unwritten = s.record.unwritten) : RecordsReads [] s t := by
  rw [RecordsReads, h, List.any_nil, Bool.or_false]

theorem noteRead (h : RecordsReads l (noteRead s p a) t) : RecordsReads ((p, a) :: l) s t := by
  simpa [RecordsReads, Bool.or_assoc] using h

/-- A read puts itself before the reads of what follows it. -/
theorem withCell {k : Value → State → Out} (h : ∀ x u, NextMeets (RecordsReads l u) (k x u)) :
    NextMeets (RecordsReads ((p, a) :: l) s) (withCell s p a k) :=
  .withCell fun _ t ht => (h _ _ t ht).noteRead

end RecordsReads

theorem exec_recordsReads (i : Instr) (s : State) : NextMeets (RecordsReads (reads i) s) (exec i s) := by
  unfold reads exec
  cases i with
  | ldz | ldo | wrb | setsgn => exact .withLive fun _ => .next (.nil (by simp))
  | mov => exact .withLive fun _ => RecordsReads.withCell fun _ _ => .next (.nil (by simp))
  | rdb | getsgn | shl | shr | getbit | setbit | randomize =>
    exact RecordsReads.withCell fun _ _ => .next (.nil (by simp))
  | isprime => exact RecordsReads.withCell fun _ _ => .guard fun _ => .next (.nil (by simp))
  | add | sub | mul | absgt | absge =>
    exact RecordsReads.withCell fun _ _ => RecordsReads.withCell fun _ _ => .next (.nil (by simp))
  | abssub | mod | div =>
    exact RecordsReads.withCell fun _ _ => RecordsReads.withCell fun _ _ => .guard fun _ => .next (.nil (by simp))
  | powmod =>
    exact RecordsReads.withCell fun _ _ => RecordsReads.withCell fun _ _ => RecordsReads.withCell fun _ _ =>
      .guard fun _ => .guard fun _ => .next (.nil (by simp))
  | xeuc => exact .execXeuc fun _ _ _ _ => .noteRead (.noteRead (.nil (by simp)))
  | invmod => exact .execInvmod fun _ _ _ _ _ => .noteRead (.noteRead (.nil (by simp)))
  | aopen | aget | aclose => refine .next (.nil ?_); split <;> rfl
  | clrst => exact .next (.nil rfl)

/-- Settles O21. -/
theorem unwrittenReadsAreRecorded : Obligations.UnwrittenReadsAreRecorded :=
  exec_recordsReads

end Sys2Proof.Machine

/-! SUPPORT and the obligations O25 and O27. Writing a part of a cell, and which part of a register counts as written
after it (R44). -/

namespace Sys2Proof.Machine

theorem keepsWritten_of_set {s t : State} {r : Fin 16} {w : Written} (h : t.written = s.written.set r w) :
    KeepsWritten [.g r] s t := by
  intro q hq
  have hne : r.val ≠ q.val := fun e => hq (by rw [Fin.ext e]; exact List.mem_singleton_self _)
  simp [h, hne]

@[simp] theorem noteBlock_written_g (s : State) (r : Fin 16) (j : Nat) : (noteBlock s (.g r) j).written =
    s.written.set r ⟨(s.written[r]).sign, (s.written[r]).blocks.set j true⟩ := rfl

@[simp] theorem noteSign_written_g (s : State) (r : Fin 16) : (noteSign s (.g r)).written =
    s.written.set r ⟨true, (s.written[r]).blocks⟩ := rfl

theorem keepsWritten_noteBlock_setCell (s : State) (o : Operand) (v : Value) (j : Nat) :
    KeepsWritten [o] s (noteBlock (setCell s o v) o j) := by
  cases o with
  | g r => exact keepsWritten_of_set (noteBlock_written_g ..)
  | s k => exact fun _ _ => rfl

theorem keepsWritten_noteSign_setCell (s : State) (o : Operand) (v : Value) :
    KeepsWritten [o] s (noteSign (setCell s o v) o) := by
  cases o with
  | g r => exact keepsWritten_of_set (noteSign_written_g ..)
  | s k => exact fun _ _ => rfl

theorem exec_wrb {s : State} {a : Operand} (j : Imm16) (ha : live s a = true) : exec (.wrb a j) s =
    .next (noteBlock (setCell s a (setBlk s.build (cell s a) j.toNat s.din.toNat)) a j.toNat) :=
  withLive_of_live ha _

theorem exec_setsgn {s : State} {a : Operand} (sb : Sign) (ha : live s a = true) : exec (.setsgn a sb) s =
    .next (noteSign (setCell s a ⟨sb, (cell s a).mag⟩) a) :=
  withLive_of_live ha _

/-- Settles O25: the cell is `setBlk` of what it was, read block by block. -/
theorem wrbWritesOneBlock : Obligations.WrbWritesOneBlock := by
  intro s a j ha hj
  refine ⟨rfl, _, exec_wrb j ha, ?_, ?_, ?_, fun k hk hne => ?_, ?_,
    (frame_setCell ..).trans (frame_noteBlock ..), ?_, ?_, ?_, keepsWritten_noteBlock_setCell s a _ _⟩
  · rw [cell_noteBlock, cell_setCell_same, setBlk]
  · rw [cell_noteBlock, cell_setCell_same, setBlk, blockShift]
  · rw [cell_noteBlock, cell_setCell_same, blk_setBlk_same]
  · rw [cell_noteBlock, cell_setCell_same, blk_setBlk_ne _ _ _ _ _ hj hk hne]
  · rintro r rfl
    simp
  all_goals simp [KeepsT, KeepsDout, KeepsRng]

/-- Settles O27. -/
theorem setsgnWritesSign : Obligations.SetsgnWritesSign := by
  intro s a sb ha
  refine ⟨by cases sb <;> rfl, _, exec_setsgn sb ha, ?_, ?_, (frame_setCell ..).trans (frame_noteSign ..), ?_, ?_, ?_,
    keepsWritten_noteSign_setCell s a _⟩
  · rw [cell_noteSign, cell_setCell_same]
  · rintro r rfl
    simp
  all_goals simp [KeepsT, KeepsDout, KeepsRng]

end Sys2Proof.Machine

/-! SUPPORT and the obligations O43 and O44. What `RANDOMIZE` leaves in a cell, and what the random-bit source can
deliver (R41, R148). -/

namespace Sys2Proof.Machine

theorem exec_randomize {s : State} {a : Operand} (nb : Imm16) (ha : live s a = true) : exec (.randomize a nb) s =
    .next (setCell { noteRead s .sign a with rng := (s.rng.bits (nb.toNat * s.build.B)).2 } a
      ⟨(cell s a).sgn, (s.rng.bits (nb.toNat * s.build.B)).1⟩) := by
  simp only [exec, execRandomize, withCell_of_live ha, noteRead_build, noteRead_rng]

/-- A block above every set bit is 0. -/
theorem blk_eq_zero {b : Build} {v : Value} {j : Nat} (h : v.mag < 2 ^ blockShift b j) : blk b v j = 0 := by
  rw [blk, Nat.div_eq_of_lt h, Nat.zero_mod]

/-- The blocks above the low `nb` lie above their `nb × B` bits. -/
theorem blocks_le_blockShift {b : Build} {nb j : Nat} (hj : j < b.N - nb) : nb * b.B ≤ blockShift b j := by
  rw [blockShift, Nat.mul_comm]
  exact Nat.mul_le_mul_left _ (by omega)

/-- Every number of `n` bits is what some delivery makes of `n` fresh bits. -/
theorem bits_delivered {n v : Nat} (hv : v < 2 ^ n) : (Rng.bits n ⟨[v], 0⟩).1 = v := by
  unfold Rng.bits
  split
  · rename_i hn
    subst hn
    exact (Nat.lt_one_iff.1 hv).symm
  · rw [draw_delivered [] 0 ⟨Nat.zero_le v, Nat.le_sub_one_of_lt hv⟩]

/-- Settles O43. -/
theorem randomizeFillsLowBlocks : Obligations.RandomizeFillsLowBlocks := by
  intro s a nb ha _
  refine ⟨rfl, _, exec_randomize nb ha, ?_, ?_, fun _ j hj => blk_eq_zero ?_,
    (frame_noteRead s .sign a).trans ((frame_rng ..).trans (frame_setCell ..)), ?_, ?_, fun r _ => ?_⟩
  · rw [cell_setCell_same]
  · rw [cell_setCell_same]
    exact bits_lt _ _
  · rw [cell_setCell_same]
    exact (bits_lt _ _).trans_le (Nat.pow_le_pow_right Nat.two_pos (blocks_le_blockShift hj))
  all_goals simp [KeepsT, KeepsDout]

/-- Settles O44: the source delivers the value itself. -/
theorem randomizeAdmitsEveryValue : Obligations.RandomizeAdmitsEveryValue := by
  intro s a nb v ha _ _ hv
  have hlive : live { s with rng := ⟨[v], 0⟩ } a = true := (congrFun (live_congr rfl) a).trans ha
  have hcell : cell { s with rng := ⟨[v], 0⟩ } a = cell s a := congrFun (cell_congr rfl rfl) a
  refine ⟨⟨[v], 0⟩, _, exec_randomize nb hlive, ?_⟩
  rw [cell_setCell_same, hcell, bits_delivered hv]

end Sys2Proof.Machine

/-! SUPPORT and the obligations O5 to O9. One step from the host's next action: a command, a CSR access, a reset. -/

namespace Sys2Proof.Machine

/-- R70: the step performs the oldest pending action. -/
theorem step_of_actions {s : State} {act : HostAction} {rest : List HostAction} (h : s.actions = act :: rest) :
    step s = perform act { s with actions := rest } := by
  simp only [step, h]

/-- R37. -/
theorem command_of_decode {s : State} {w : Word} {i : Instr} (h : decode s.build w = .ok i) :
    command w s = exec i s := by
  simp only [command, h]

/-- Settles O5. -/
theorem stepRunsDecodedCommand : Obligations.StepRunsDecodedCommand := by
  refine ⟨fun s w rest i hact hdecode => ?_, fun s w i hdecode => ?_⟩
  · rw [step_of_actions hact]
    exact command_of_decode hdecode
  · exact command_of_decode hdecode

/-- R32: the three fields of `CFG`. -/
theorem cfgWord_fields (b : Build) : (cfgWord b).extractLsb' 0 16 = BitVec.ofNat 16 b.N ∧
    (cfgWord b).extractLsb' 16 8 = BitVec.ofNat 8 b.B ∧ (cfgWord b).extractLsb' 24 8 = 0 := by
  refine ⟨?_, ?_, ?_⟩ <;> apply BitVec.eq_of_toNat_eq <;> simp [cfgWord, Nat.shiftRight_eq_div_pow] <;> omega

/-- R33: the four flags of `STATUS`. -/
theorem statusWord_bits (f : Status) : (statusWord f).getLsbD 0 = f.t ∧ (statusWord f).getLsbD 1 = f.aerr ∧
    (statusWord f).getLsbD 2 = f.ill ∧ (statusWord f).getLsbD 3 = f.afull ∧ (statusWord f).extractLsb' 4 28 = 0 := by
  obtain ⟨t, aerr, ill, afull⟩ := f
  revert t aerr ill afull
  decide

/-- Settles O6: the word is `csrValue`, CSR by CSR. -/
theorem csrReadReturnsContent : Obligations.CsrReadReturnsContent := by
  intro s n rest hact
  refine ⟨csrValue s n, step_of_actions hact, ?_, ?_, ?_, ?_, ?_, ?_, ?_, ?_⟩ <;> rintro rfl
  · exact cfgWord_fields s.build
  · exact statusWord_bits s.status
  · exact BitVec.toNat_ofNat s.atop 32
  · exact BitVec.toNat_ofNat s.marks.length 32
  · exact BitVec.toNat_ofNat s.res 32
  all_goals rfl

/-- R36: the low bits of a word are a word. -/
theorem toNat_ofNat_mod_two_pow (w : Word) (B : Nat) :
    (BitVec.ofNat 32 (w.toNat % 2 ^ B)).toNat = w.toNat % 2 ^ B := by
  rw [BitVec.toNat_ofNat, Nat.mod_eq_of_lt ((Nat.mod_le _ _).trans_lt w.isLt)]

theorem csrWrite_of_ne_five {n : Fin 8} (h : n ≠ 5) (w : Word) (s : State) : csrWrite n w s = s := if_neg h

/-- Settles O7. -/
theorem csrWriteStoresDinOnly : Obligations.CsrWriteStoresDinOnly := by
  intro s n w rest hact
  refine ⟨?_, fun h5 h7 => ?_⟩
  · rintro rfl
    exact ⟨_, toNat_ofNat_mod_two_pow w s.build.B, step_of_actions hact⟩
  · rw [step_of_actions hact, perform, if_neg h7, csrWrite_of_ne_five h5]

/-- R44: after reset nothing of any register is written. -/
theorem resetFor_written (b : Build) (r : Fin 16) : (State.resetFor b).written[r] = Written.none b := by
  simp [State.resetFor]

theorem resetFor_slots_dead (b : Build) (k : Fin 128) : live (State.resetFor b) (.s k) = false :=
  decide_eq_false (Nat.not_lt_zero k.val)

/-- Settles O8. -/
theorem resetActionRestoresResetState : Obligations.ResetActionRestoresResetState := by
  intro s rest hact
  refine ⟨_, step_of_actions hact, rfl, rfl, rfl, rfl, rfl, rfl, rfl, resetFor_slots_dead s.build, fun r => ?_⟩
  have hw : (doReset { s with actions := rest }).written[r] = Written.none s.build := resetFor_written s.build r
  rw [hw]
  exact ⟨rfl, fun x hx => List.eq_of_mem_replicate hx⟩

/-- Settles O9. -/
theorem resetStateValues : Obligations.ResetStateValues := by
  refine ⟨rfl, rfl, rfl, rfl, rfl, rfl, resetFor_slots_dead .standard, fun r => ?_, rfl⟩
  have hw : State.reset.written[r] = Written.none .standard := resetFor_written .standard r
  rw [hw]
  rfl

end Sys2Proof.Machine

/-! SUPPORT and the obligation O26. What `RDB` leaves in `DOUT` (R63, R164). -/

namespace Sys2Proof.Machine

/-- R164. -/
theorem exec_rdb {s : State} {a : Operand} (j : Imm16) (ha : live s a = true) : exec (.rdb a j) s =
    .next { noteRead s (.block j.toNat) a with dout := BitVec.ofNat 32 (blk s.build (cell s a) j.toNat) } := by
  simp only [exec, execRdb, withCell_of_live ha, noteRead_build]

/-- R5, R36: a block of at most 32 bits fits a CSR. -/
theorem toNat_ofNat_blk {b : Build} (hB : b.B ≤ 32) (v : Value) (j : Nat) :
    (BitVec.ofNat 32 (blk b v j)).toNat = blk b v j := by
  rw [BitVec.toNat_ofNat, Nat.mod_eq_of_lt ((blk_lt b v j).trans_le (Nat.pow_le_pow_right Nat.two_pos hB))]

/-- Settles O26: `DOUT` takes the block, which it has room for; the read only enters the model's record. -/
theorem rdbReadsOneBlock : Obligations.RdbReadsOneBlock := by
  intro s a j ha _ hB
  exact ⟨rfl, _, exec_rdb j ha, toNat_ofNat_blk hB (cell s a) j.toNat,
    (frame_noteRead s _ a).trans (frame_dout ..), rfl, rfl, fun _ _ => rfl⟩

end Sys2Proof.Machine

/-! SUPPORT and the obligations O1 and O2. The decoder on the words of the encoder, and the encoder on what the decoder
answers, format by format (R81). -/

namespace Sys2Proof

variable {b : Build} {w : Word} {i : Instr} {op : Byte} {n : Nat}

@[simp] theorem opField_wordAI (op a : Byte) (n : Imm16) : opField (wordAI op a n) = op := (fields_wordAI op a n).1
@[simp] theorem aField_wordAI (op a : Byte) (n : Imm16) : aField (wordAI op a n) = a := (fields_wordAI op a n).2.1
@[simp] theorem immField_wordAI (op a : Byte) (n : Imm16) : immField (wordAI op a n) = n := (fields_wordAI op a n).2.2
@[simp] theorem opField_wordABC (op a b c : Byte) : opField (wordABC op a b c) = op := (fields_wordABC op a b c).1
@[simp] theorem aField_wordABC (op a b c : Byte) : aField (wordABC op a b c) = a := (fields_wordABC op a b c).2.1
@[simp] theorem bField_wordABC (op a b c : Byte) : bField (wordABC op a b c) = b := (fields_wordABC op a b c).2.2.1
@[simp] theorem cField_wordABC (op a b c : Byte) : cField (wordABC op a b c) = c := (fields_wordABC op a b c).2.2.2

/-! From a command to its word and back. -/

theorem withOperand_spec {x : Operand} (hx : x.wf b = true) (k : Operand → Decoded) :
    withOperand b x.spec k = k x := by
  rw [withOperand, decodeOperand_spec hx]

theorem decodeZ_word (op : Byte) (i : Instr) : decodeZ (wordAI op 0 0) i = .ok i := by
  simp [decodeZ]

theorem decodeR1_word {x : Operand} (hx : x.wf b = true) {k : Operand → Instr} :
    decodeR1 b (wordAI op x.spec 0) k = .ok (k x) := by
  simp [decodeR1, withOperand_spec hx]

theorem decodeR2_word {x y : Operand} {k : Operand → Operand → Decoded} (hxy : (x.wf b && y.wf b) = true) :
    decodeR2 b (wordABC op x.spec y.spec 0) k = k x y := by
  obtain ⟨hx, hy⟩ := Bool.and_eq_true_iff.1 hxy
  simp [decodeR2, withOperand_spec hx, withOperand_spec hy]

theorem decodeR3_word {x y z : Operand} {k : Operand → Operand → Operand → Instr}
    (h : (x.wf b && y.wf b && z.wf b) = true) :
    decodeR3 b (wordABC op x.spec y.spec z.spec) k = .ok (k x y z) := by
  obtain ⟨hxy, hz⟩ := Bool.and_eq_true_iff.1 h
  obtain ⟨hx, hy⟩ := Bool.and_eq_true_iff.1 hxy
  simp [decodeR3, withOperand_spec hx, withOperand_spec hy, withOperand_spec hz]

theorem decodeRI_word {x : Operand} {j : Imm16} {inRange : Nat → Bool} {k : Operand → Imm16 → Instr}
    (h : (x.wf b && inRange j.toNat) = true) :
    decodeRI b (wordAI op x.spec j) inRange k = .ok (k x j) := by
  obtain ⟨hx, hj⟩ := Bool.and_eq_true_iff.1 h
  simp [decodeRI, withOperand_spec hx, hj]

/-- Format `RI` where every immediate is legal. -/
theorem decodeRI_word_any {x : Operand} {j : Imm16} {k : Operand → Imm16 → Instr} (hx : x.wf b = true) :
    decodeRI b (wordAI op x.spec j) (fun _ => true) k = .ok (k x j) :=
  decodeRI_word (Bool.and_eq_true_iff.2 ⟨hx, rfl⟩)

theorem decodeXeuc_of_wf {x y : Operand} (h : WellFormed b (.xeuc x y)) : decodeXeuc x y = .ok (.xeuc x y) :=
  if_neg (of_decide_eq_true (Bool.and_eq_true_iff.1 h).2)

/-- `SETSGN`: both signs have an immediate in range, which names the sign (R85). -/
theorem decodeRI_setsgn {x : Operand} (hx : x.wf b = true) (sb : Sign) :
    decodeRI b (wordAI op x.spec sb.imm) (fun n => decide (n < 2)) (fun x n => .setsgn x (signOfImm n)) =
      .ok (.setsgn x sb) := by
  cases sb <;> exact decodeRI_word (Bool.and_eq_true_iff.2 ⟨hx, rfl⟩)

/-- Settles O1: the opcode selects the command's own row, and each format gives the fields back. -/
theorem decodeOfEncode : Obligations.DecodeOfEncode := by
  intro b i h
  cases i <;> simp only [encode, decode, opField_wordAI, opField_wordABC]
  case ldz | ldo | getsgn => exact decodeR1_word h
  case wrb | rdb | getbit | setbit | randomize => exact decodeRI_word h
  case setsgn => exact decodeRI_setsgn h _
  case shl | shr | isprime => exact decodeRI_word_any h
  case powmod => exact decodeR3_word h
  case aopen | aget | aclose | clrst => exact decodeZ_word _ _
  case xeuc => exact (decodeR2_word (Bool.and_eq_true_iff.1 h).1).trans (decodeXeuc_of_wf h)
  all_goals exact decodeR2_word h

/-! From a word with opcode `n` to its command and back. Each format's lemma takes `hk`, that the row's commands have
words of the format with that opcode. -/

section

variable (hop : (opField w).toNat = n)
include hop

theorem opField_eq : opField w = BitVec.ofNat 8 n := by
  rw [← hop, BitVec.ofNat_toNat, BitVec.setWidth_eq]

theorem encode_of_decodeZ {j : Instr} (h : decodeZ w j = .ok i)
    (hj : encode j = wordAI (BitVec.ofNat 8 n) 0 0) : encode i = w := by
  unfold decodeZ at h
  split at h <;> cases h
  obtain ⟨ha, himm⟩ := ‹_ ∧ _›
  rw [hj, ← opField_eq hop, ← ha, ← himm, wordAI_fields]

theorem encode_of_decodeR1 {k : Operand → Instr} (h : decodeR1 b w k = .ok i)
    (hk : ∀ x, encode (k x) = wordAI (BitVec.ofNat 8 n) x.spec 0) : encode i = w := by
  unfold decodeR1 at h
  split at h
  · obtain ⟨x, hx, -, hi⟩ := withOperand_ok h
    cases hi
    rw [hk, (spec_of_decodeOperand hx).2, ← opField_eq hop, ← ‹immField w = 0›, wordAI_fields]
  · cases h

theorem encode_of_decodeR2 {k : Operand → Operand → Decoded} (h : decodeR2 b w k = .ok i)
    (hk : ∀ x y, k x y = .ok i → encode i = wordABC (BitVec.ofNat 8 n) x.spec y.spec 0) : encode i = w := by
  unfold decodeR2 at h
  split at h
  · obtain ⟨x, hx, -, h⟩ := withOperand_ok h
    obtain ⟨y, hy, -, h⟩ := withOperand_ok h
    rw [hk x y h, (spec_of_decodeOperand hx).2, (spec_of_decodeOperand hy).2, ← opField_eq hop, ← ‹cField w = 0›,
      wordABC_fields]
  · cases h

/-- Format `R2` with no further test. -/
theorem encode_of_decodeR2_ok {k : Operand → Operand → Instr} (h : decodeR2 b w (fun x y => .ok (k x y)) = .ok i)
    (hk : ∀ x y, encode (k x y) = wordABC (BitVec.ofNat 8 n) x.spec y.spec 0) : encode i = w := by
  refine encode_of_decodeR2 hop h fun x y hi => ?_
  cases hi
  exact hk x y

theorem encode_of_decodeR3 {k : Operand → Operand → Operand → Instr} (h : decodeR3 b w k = .ok i)
    (hk : ∀ x y z, encode (k x y z) = wordABC (BitVec.ofNat 8 n) x.spec y.spec z.spec) : encode i = w := by
  obtain ⟨x, hx, -, h⟩ := withOperand_ok h
  obtain ⟨y, hy, -, h⟩ := withOperand_ok h
  obtain ⟨z, hz, -, h⟩ := withOperand_ok h
  cases h
  rw [hk, (spec_of_decodeOperand hx).2, (spec_of_decodeOperand hy).2, (spec_of_decodeOperand hz).2, ← opField_eq hop,
    wordABC_fields]

theorem encode_of_decodeRI {inRange : Nat → Bool} {k : Operand → Imm16 → Instr} (h : decodeRI b w inRange k = .ok i)
    (hk : ∀ x j, inRange j.toNat = true → encode (k x j) = wordAI (BitVec.ofNat 8 n) x.spec j) :
    encode i = w := by
  obtain ⟨x, hx, -, h⟩ := withOperand_ok h
  split at h
  · cases h
    rw [hk x _ ‹_›, (spec_of_decodeOperand hx).2, ← opField_eq hop, wordAI_fields]
  · cases h

end

theorem encode_of_decodeXeuc {x y : Operand} (h : decodeXeuc x y = .ok i) :
    encode i = wordABC 0x60 x.spec y.spec 0 := by
  unfold decodeXeuc at h
  split at h <;> cases h
  rfl

/-- An immediate in the range of `SETSGN` is that of the sign it names (R85). -/
theorem imm_signOfImm {n : Imm16} (h : n.toNat < 2) : (signOfImm n).imm = n := by
  obtain h0 | h1 : n.toNat = 0 ∨ n.toNat = 1 := by omega
  · rw [BitVec.eq_of_toNat_eq (y := 0) h0]; rfl
  · rw [BitVec.eq_of_toNat_eq (y := 1) h1]; rfl

theorem encode_of_decode (h : decode b w = .ok i) : encode i = w := by
  unfold decode at h
  split at h
  all_goals rename_i hop
  -- LDZ, LDO, GETSGN
  case h_1 | h_2 | h_7 => exact encode_of_decodeR1 hop h fun _ => rfl
  -- SETSGN
  case h_6 =>
    exact encode_of_decodeRI hop h fun x _ hj =>
      congrArg (wordAI 0x15 x.spec) (imm_signOfImm (of_decide_eq_true hj))
  -- the other commands of format RI
  case h_4 | h_5 | h_15 | h_16 | h_19 | h_20 | h_21 | h_27 => exact encode_of_decodeRI hop h fun _ _ _ => rfl
  -- POWMOD
  case h_14 => exact encode_of_decodeR3 hop h fun _ _ _ => rfl
  -- AOPEN, AGET, ACLOSE, CLRST
  case h_22 | h_23 | h_24 | h_28 => exact encode_of_decodeZ hop h rfl
  -- XEUC
  case h_25 => exact encode_of_decodeR2 hop h fun _ _ => encode_of_decodeXeuc
  -- an opcode outside the table
  case h_29 => cases h
  -- the other commands of format R2
  all_goals exact encode_of_decodeR2_ok hop h fun _ _ => rfl

/-- Settles O2: what decodes is legal, and each format's fields are all of the word. -/
theorem encodeOfDecode : Obligations.EncodeOfDecode := fun _ _ _ h =>
  ⟨wellFormed_of_decode h, encode_of_decode h⟩

end Sys2Proof

/-! SUPPORT and the obligation O3. The five tests of R95 as the decoder makes them, held against the same tests written
over the opcode map (`illegalReason`), format by format. -/

namespace Sys2Proof

variable {b : Build} {w : Word} {n : Nat} {m : String}

/-- Why a decoder's answer is no command. -/
def Decoded.reason : Decoded → Option IllegalWord
  | .ok _ => none
  | .error r => some r

@[simp] theorem reason_ok (i : Instr) : Decoded.reason (.ok i) = none := rfl
@[simp] theorem reason_error (r : IllegalWord) : Decoded.reason (.error r) = some r := rfl

theorem decode_eq_error_iff {r : IllegalWord} : decode b w = .error r ↔ (decode b w).reason = some r := by
  cases decode b w <;> simp

theorem decode_eq_ok_iff : (∃ i, decode b w = .ok i) ↔ (decode b w).reason = none := by
  cases decode b w <;> simp

/-! Test (2): the fixed bits of a format. -/

theorem wordAI_inj {op op' a a' : Byte} {j j' : Imm16} :
    wordAI op a j = wordAI op' a' j' ↔ op = op' ∧ a = a' ∧ j = j' := by
  refine ⟨fun h => ⟨?_, ?_, ?_⟩, fun ⟨h1, h2, h3⟩ => by rw [h1, h2, h3]⟩
  · simpa using congrArg opField h
  · simpa using congrArg aField h
  · simpa using congrArg immField h

theorem wordABC_inj {op op' a a' c c' d d' : Byte} :
    wordABC op a c d = wordABC op' a' c' d' ↔ op = op' ∧ a = a' ∧ c = c' ∧ d = d' := by
  refine ⟨fun h => ⟨?_, ?_, ?_, ?_⟩, fun ⟨h1, h2, h3, h4⟩ => by rw [h1, h2, h3, h4]⟩
  · simpa using congrArg opField h
  · simpa using congrArg aField h
  · simpa using congrArg bField h
  · simpa using congrArg cField h

theorem and_wordAI (w : Word) (op a : Byte) (j : Imm16) :
    w &&& wordAI op a j = wordAI (opField w &&& op) (aField w &&& a) (immField w &&& j) := by
  conv_lhs => rw [← wordAI_fields w]
  rw [wordAI, wordAI, BitVec.and_append, BitVec.and_append, wordAI]

theorem and_wordABC (w : Word) (op a c d : Byte) :
    w &&& wordABC op a c d = wordABC (opField w &&& op) (aField w &&& a) (bField w &&& c) (cField w &&& d) := by
  conv_lhs => rw [← wordABC_fields w]
  rw [wordABC, wordABC, BitVec.and_append, BitVec.and_append, BitVec.and_append, wordABC]

theorem matchWord_eq {r : Row} (hop : (opField w).toNat = r.op) : r.matchWord = wordAI (opField w) 0 0 := by
  have := (opField w).isLt
  apply BitVec.eq_of_toNat_eq
  simp [Row.matchWord, wordAI_toNat, ← hop, Nat.shiftLeft_eq]
  omega

theorem wordAI_zero_eq_wordABC (op a : Byte) : wordAI op a 0 = wordABC op a 0 0 :=
  BitVec.eq_of_toNat_eq (by simp [wordAI_toNat, wordABC_toNat])

section

variable (hop : (opField w).toNat = n)
include hop

/-- Formats `R3` and `RI` use every field. -/
theorem and_mask_op (f : Format) (hf : f.mask = 0xFF000000) : w &&& f.mask = Row.matchWord ⟨n, m, f⟩ := by
  rw [hf, show (0xFF000000 : Word) = wordAI (.allOnes 8) 0 0 from rfl, matchWord_eq hop, and_wordAI]
  simp only [BitVec.ofNat_eq_ofNat, BitVec.and_allOnes, BitVec.and_zero]

theorem and_mask_r1 : w &&& Format.r1.mask = Row.matchWord ⟨n, m, .r1⟩ ↔ immField w = 0 := by
  rw [show Format.r1.mask = wordAI (.allOnes 8) 0 (.allOnes 16) from rfl, matchWord_eq hop, and_wordAI]
  simp only [wordAI_inj, BitVec.ofNat_eq_ofNat, BitVec.and_allOnes, BitVec.and_zero, true_and]

theorem and_mask_z : w &&& Format.z.mask = Row.matchWord ⟨n, m, .z⟩ ↔ aField w = 0 ∧ immField w = 0 := by
  rw [show Format.z.mask = wordAI (.allOnes 8) (.allOnes 8) (.allOnes 16) from rfl, matchWord_eq hop, and_wordAI]
  simp only [wordAI_inj, BitVec.ofNat_eq_ofNat, BitVec.and_allOnes, true_and]

theorem and_mask_r2 : w &&& Format.r2.mask = Row.matchWord ⟨n, m, .r2⟩ ↔ cField w = 0 := by
  rw [show Format.r2.mask = wordABC (.allOnes 8) 0 0 (.allOnes 8) from rfl, matchWord_eq hop,
    wordAI_zero_eq_wordABC, and_wordABC]
  simp only [wordABC_inj, BitVec.ofNat_eq_ofNat, BitVec.and_allOnes, BitVec.and_zero, true_and]

end

/-! Test (3): the specifiers of R84. -/

theorem specifierNames_eq_isSome (b : Build) (x : Byte) : specifierNames b x = (decodeOperand b x).isSome := by
  by_cases hreg : x.toNat < 0x10
  · rw [specifierNames, decodeOperand, dif_pos hreg, decide_eq_true (Nat.le_of_lt_succ hreg)]
    rfl
  · rw [specifierNames, decodeOperand, dif_neg hreg, decide_eq_false fun h => hreg (Nat.lt_succ_of_le h), Bool.false_or]
    by_cases hslot : x.toNat < 0x80
    · rw [if_pos hslot, decide_eq_false (Nat.not_le_of_lt hslot)]
      rfl
    · rw [if_neg hslot, decide_eq_true (Nat.le_of_not_lt hslot), Bool.true_and]
      exact (Bool.eq_iff_iff.2 Option.isSome_ite).symm

theorem reason_withOperand {x : Byte} {k : Operand → Decoded} {q : Option IllegalWord}
    (hk : ∀ o, decodeOperand b x = some o → (k o).reason = q) :
    (withOperand b x k).reason = if specifierNames b x then q else some .badSpecifier := by
  rw [specifierNames_eq_isSome]
  unfold withOperand
  split
  · simp [*]
  · simp [*]

/-! The five tests in order, for a row of each format. -/

section

variable (hop : (opField w).toNat = n)
include hop

/-- The tests after the first, for a word whose opcode has row `r`. -/
theorem illegalReason_of_row {r : Row}
    (hrow : opcodeTable.find? (fun r => r.op == n) = some r) : illegalReason b w =
      if w &&& r.format.mask = r.matchWord then
        if (r.format.specifiers w).all (specifierNames b) then
          if immediateLegal b r.op (immField w).toNat then
            if r.op = 0x60 ∧ aField w = bField w then some .sameDestination else none
          else some .badImmediate
        else some .badSpecifier
      else some .unusedField := by
  have hw : rowOf w = some r := by rw [rowOf, hop, hrow]
  simp only [illegalReason, hw, ne_eq, ite_not, Bool.not_eq_true', Bool.eq_false_iff]

theorem reason_decodeZ {i : Instr}
    (hrow : opcodeTable.find? (fun r => r.op == n) = some ⟨n, m, .z⟩)
    (himm : ∀ j, immediateLegal b n j = true) (hn : n ≠ 0x60) :
    (decodeZ w i).reason = illegalReason b w := by
  simp only [illegalReason_of_row hop hrow, and_mask_z hop, Format.specifiers, List.all_nil, himm, hn, false_and,
    if_true, if_false, decodeZ, apply_ite Decoded.reason, reason_ok, reason_error]

theorem reason_decodeR1 {k : Operand → Instr}
    (hrow : opcodeTable.find? (fun r => r.op == n) = some ⟨n, m, .r1⟩)
    (himm : ∀ j, immediateLegal b n j = true) (hn : n ≠ 0x60) :
    (decodeR1 b w k).reason = illegalReason b w := by
  rw [illegalReason_of_row hop hrow, decodeR1, apply_ite Decoded.reason, reason_withOperand fun _ _ => reason_ok _]
  simp [and_mask_r1 hop, Format.specifiers, himm, hn]

theorem reason_decodeR2 {k : Operand → Operand → Decoded}
    (hrow : opcodeTable.find? (fun r => r.op == n) = some ⟨n, m, .r2⟩)
    (himm : ∀ j, immediateLegal b n j = true)
    (hk : ∀ x y, decodeOperand b (aField w) = some x → decodeOperand b (bField w) = some y →
      (k x y).reason = if n = 0x60 ∧ aField w = bField w then some .sameDestination else none) :
    (decodeR2 b w k).reason = illegalReason b w := by
  rw [illegalReason_of_row hop hrow, decodeR2, apply_ite Decoded.reason,
    reason_withOperand fun x hx => reason_withOperand fun y hy => hk x y hx hy]
  simp [and_mask_r2 hop, Format.specifiers, himm, ite_and]

theorem reason_decodeR3 {k : Operand → Operand → Operand → Instr}
    (hrow : opcodeTable.find? (fun r => r.op == n) = some ⟨n, m, .r3⟩)
    (himm : ∀ j, immediateLegal b n j = true) (hn : n ≠ 0x60) :
    (decodeR3 b w k).reason = illegalReason b w := by
  rw [illegalReason_of_row hop hrow, decodeR3,
    reason_withOperand fun _ _ => reason_withOperand fun _ _ => reason_withOperand fun _ _ => reason_ok _]
  simp [and_mask_op hop .r3 (m := m) rfl, Format.specifiers, himm, hn, ite_and]

theorem reason_decodeRI {inRange : Nat → Bool} {k : Operand → Imm16 → Instr}
    (hrow : opcodeTable.find? (fun r => r.op == n) = some ⟨n, m, .ri⟩)
    (himm : ∀ j, immediateLegal b n j = inRange j) (hn : n ≠ 0x60) :
    (decodeRI b w inRange k).reason = illegalReason b w := by
  rw [illegalReason_of_row hop hrow, decodeRI,
    reason_withOperand (q := if inRange (immField w).toNat then none else some .badImmediate)
      fun _ _ => apply_ite Decoded.reason ..]
  simp [and_mask_op hop .ri (m := m) rfl, Format.specifiers, himm, hn]

end

/-- Test (5): two specifiers name one cell when they are the same byte (R84). -/
theorem reason_decodeXeuc {x y : Operand} (hx : decodeOperand b (aField w) = some x)
    (hy : decodeOperand b (bField w) = some y) :
    (decodeXeuc x y).reason = if aField w = bField w then some .sameDestination else none := by
  have hxy : x = y ↔ aField w = bField w := by
    refine ⟨fun h => ?_, fun h => ?_⟩
    · rw [← (spec_of_decodeOperand hx).2, ← (spec_of_decodeOperand hy).2, h]
    · rw [h, hy] at hx
      exact (Option.some.inj hx).symm
  rw [decodeXeuc, apply_ite Decoded.reason, if_congr hxy rfl rfl]
  rfl

/-- R95: the decoder's reason is the first test that holds. -/
theorem reason_decode (b : Build) (w : Word) : (decode b w).reason = illegalReason b w := by
  unfold decode
  split
  all_goals rename_i hop
  -- LDZ, LDO, GETSGN
  case h_1 | h_2 | h_7 => exact reason_decodeR1 hop rfl (fun _ => rfl) (by decide)
  -- SETSGN
  case h_6 => exact reason_decodeRI hop rfl (fun j => decide_eq_decide.2 (by omega)) (by decide)
  -- the other commands of format RI
  case h_4 | h_5 | h_15 | h_16 | h_19 | h_20 | h_21 | h_27 =>
    exact reason_decodeRI hop rfl (fun _ => rfl) (by decide)
  -- POWMOD
  case h_14 => exact reason_decodeR3 hop rfl (fun _ => rfl) (by decide)
  -- AOPEN, AGET, ACLOSE, CLRST
  case h_22 | h_23 | h_24 | h_28 => exact reason_decodeZ hop rfl (fun _ => rfl) (by decide)
  -- XEUC
  case h_25 => exact reason_decodeR2 hop rfl (fun _ => rfl) fun _ _ hx hy => (reason_decodeXeuc hx hy).trans (by simp)
  -- an opcode outside the table
  case h_29 =>
    have hrow : rowOf w = none := by
      simp only [imp_false] at *
      simp [rowOf, opcodeTable, eq_comm (b := (opField w).toNat), *]
    rw [illegalReason, hrow]
    rfl
  -- the other commands of format R2
  all_goals exact reason_decodeR2 hop rfl (fun _ => rfl) fun _ _ _ _ => rfl

end Sys2Proof

namespace Sys2Proof.Machine

theorem command_of_decode_error {s : State} {w : Word} {r : IllegalWord} (h : decode s.build w = .error r) :
    command w s = .next (raise .ill s) := by
  simp only [command, h]

/-- Settles O3. -/
theorem illegalWordSetsIllOnly : Obligations.IllegalWordSetsIllOnly := by
  intro s w rest r hact
  rw [← reason_decode]
  refine ⟨decode_eq_error_iff, decode_eq_ok_iff, fun hr => ?_⟩
  rw [step_of_actions hact]
  exact command_of_decode_error (decode_eq_error_iff.2 hr)

end Sys2Proof.Machine

/-! SUPPORT and the obligation O14. No operation the meanings are built from refuses, so no command and no step does. -/

namespace Sys2Proof.Machine

/-- The outcome is a next state or a fault. -/
def Answers (o : Out) : Prop := ∀ r : Refusal, o ≠ .refused r

namespace Answers

variable {s : State} {a b : Operand}

theorem next (t : State) : Answers (.next t) := nofun

theorem fault (f : Fault) : Answers (.fault f) := nofun

theorem withLive {k : Out} (hk : Answers k) : Answers (withLive s a k) := by
  unfold Machine.withLive
  split
  · exact hk
  · exact fault _

theorem withCell {p : Part} {k : Value → State → Out} (hk : ∀ x u, Answers (k x u)) : Answers (withCell s p a k) :=
  withLive (hk _ _)

theorem guard {c : Prop} [Decidable c] {f : Fault} {x : Out} (hx : Answers x) :
    Answers (if c then .fault f else x) := by
  split
  · exact fault f
  · exact hx

theorem execXeuc : Answers (execXeuc a b s) := by
  refine withCell fun x _ => withCell fun y u => ?_
  cases solve u.build x y with
  | ok st => exact next _
  | error f => exact fault f

theorem execInvmod : Answers (execInvmod a b s) := by
  refine withCell fun x _ => withCell fun m u => ?_
  cases solve u.build x m with
  | ok st => exact guard (next _)
  | error f => exact fault f

end Answers

theorem exec_answers (i : Instr) (s : State) : Answers (exec i s) := by
  unfold exec
  cases i with
  | ldz | ldo | wrb | setsgn => exact .withLive (.next _)
  | mov => exact .withLive (.withCell fun _ _ => .next _)
  | rdb | getsgn | shl | shr | getbit | setbit | randomize => exact .withCell fun _ _ => .next _
  | isprime => exact .withCell fun _ _ => .guard (.next _)
  | add | sub | mul | absgt | absge => exact .withCell fun _ _ => .withCell fun _ _ => .next _
  | abssub | mod | div => exact .withCell fun _ _ => .withCell fun _ _ => .guard (.next _)
  | powmod => exact .withCell fun _ _ => .withCell fun _ _ => .withCell fun _ _ => .guard (.guard (.next _))
  | xeuc => exact .execXeuc
  | invmod => exact .execInvmod
  | aopen | aget | aclose | clrst => exact .next _

theorem command_answers (w : Word) (s : State) : Answers (command w s) := by
  unfold command
  cases decode s.build w with
  | ok i => exact exec_answers i s
  | error r => exact .next _

theorem step_answers (s : State) : Answers (step s) := by
  cases hact : s.actions with
  | nil =>
    rw [step, hact]
    exact .next s
  | cons act rest =>
    rw [step_of_actions hact]
    cases act with
    | csrRead n => exact .next _
    | csrWrite n w =>
      rw [perform]
      split
      · exact command_answers w _
      · exact .next _
    | reset => exact .next _

/-- Settles O14. -/
theorem nothingIsRefused : Obligations.NothingIsRefused :=
  ⟨exec_answers, step_answers⟩

end Sys2Proof.Machine

/-! The obligation O4. -/

namespace Sys2Proof

/-- Settles O4: the legal words are those of their commands, and the bit position 32 is below `W` in T256 only. -/
theorem sampleWordsDecode : Obligations.SampleWordsDecode :=
  ⟨decodeOfEncode .t32 (.wrb (.g 1) 3) rfl, decodeOfEncode .t32 (.add (.g 1) (.g 2)) rfl,
    decodeOfEncode .t32 (.powmod (.g 1) (.g 2) (.g 3)) rfl, decodeOfEncode .t32 (.shr (.g 1) 12) rfl,
    decodeOfEncode .t32 .aget rfl, decodeOfEncode .t32 (.invmod (.s 0) (.g 2)) rfl,
    decodeOfEncode .t32 (.isprime (.g 1) 1) rfl, decodeOfEncode .t32 .clrst rfl, rfl,
    decodeOfEncode .t256 (.getbit (.g 1) 32) rfl⟩

end Sys2Proof

/-! SUPPORT. What the host's pending actions bring about, performed one after another (R30, R70): a predicate with one
rule for each way host macros are put together. -/

namespace Sys2Proof.Machine

/-- From every state meeting `P` with the actions `l` pending before others, as many steps as `l` has actions end in a
next state that meets `Q`, the others still pending. -/
def Drives (l : List HostAction) (P Q : State → Prop) : Prop :=
  ∀ (s : State) (rest : List HostAction), s.actions = l ++ rest → P s →
    ∃ t, Host.Core.run Sys2Proof.core l.length s = .next t ∧ t.actions = rest ∧ Q t

theorem run_one_of_step {s t : State} (h : step s = .next t) : Host.Core.run Sys2Proof.core 1 s = .next t := by
  have hcore : Sys2Proof.core.step s = .next t := h
  simp only [Host.Core.run, hcore]

theorem run_add_of_run {k m : Nat} {s u : State} (h : Host.Core.run Sys2Proof.core k s = .next u) :
    Host.Core.run Sys2Proof.core (k + m) s = Host.Core.run Sys2Proof.core m u := by
  induction k generalizing s with
  | zero =>
    cases h
    rw [Nat.zero_add]
  | succ k ih =>
    rw [Nat.succ_add]
    simp only [Host.Core.run] at h ⊢
    split at h
    · exact ih h
    · cases h
    · cases h

namespace Drives

variable {l m : List HostAction} {P Q R : State → Prop}

theorem nil (h : ∀ s, P s → Q s) : Drives [] P Q := fun s _ hact hP => ⟨s, rfl, hact, h s hP⟩

theorem append (h : Drives l P Q) (h' : Drives m Q R) : Drives (l ++ m) P R := by
  intro s rest hact hP
  obtain ⟨u, hrun, hu, hQ⟩ := h s (m ++ rest) (by rw [hact, List.append_assoc]) hP
  obtain ⟨t, hrun', ht, hR⟩ := h' u rest hu hQ
  exact ⟨t, by rw [List.length_append, run_add_of_run hrun, hrun'], ht, hR⟩

/-- A macro that visits `0` to `n - 1` in order. -/
theorem range {n : Nat} {f : Nat → List HostAction} {P : Nat → State → Prop}
    (h : ∀ k < n, Drives (f k) (P k) (P (k + 1))) : Drives ((List.range n).flatMap f) (P 0) (P n) := by
  induction n with
  | zero => exact nil fun _ hP => hP
  | succ n ih =>
    rw [List.range_succ, List.flatMap_append, List.flatMap_singleton]
    exact (ih fun k hk => h k (Nat.lt_succ_of_lt hk)).append (h n (Nat.lt_succ_self n))

variable (hP : ∀ s l, P s → P { s with actions := l })
include hP

/-- One action other than a command, when `P` does not speak of the pending actions. -/
theorem single {act : HostAction} (h : ∀ s, P s → ∃ t, perform act s = .next t ∧ t.actions = s.actions ∧ Q t) :
    Drives [act] P Q := by
  intro s rest hact hs
  obtain ⟨t, hperform, ht⟩ := h _ (hP s rest hs)
  exact ⟨t, run_one_of_step ((step_of_actions hact).trans hperform), ht⟩

/-- Issuing a legal command performs it (R37), and no command changes the pending actions. -/
theorem issue {i : Instr} (hwf : ∀ s, P s → WellFormed s.build i) (h : ∀ s, P s → ∃ t, exec i s = .next t ∧ Q t) :
    Drives [issue i] P Q := by
  refine single hP fun s hs => ?_
  obtain ⟨t, hexec, hQ⟩ := h s hs
  obtain ⟨-, -, -, hactions, -⟩ := exec_keepsLiveCells i s t hexec
  exact ⟨t, (command_of_decode (decodeOfEncode s.build i (hwf s hs))).trans hexec, hactions, hQ⟩

end Drives

end Sys2Proof.Machine

/-! SUPPORT and the obligation O56. `LOADV` fills a cell from the most significant block down (R99). -/

namespace Sys2Proof.Machine

theorem wasWritten_noteWhole (s : State) (a : Operand) : wasWritten (noteWhole s a) .whole a = true := by
  cases a <;> simp [wasWritten, noteWhole, Written.whole]

theorem wasWritten_noteBlock {s : State} {a : Operand} (h : wasWritten s .whole a = true) (j : Nat) :
    wasWritten (noteBlock s a j) .whole a = true := by
  cases a with
  | g r =>
    obtain ⟨hsign, hblocks⟩ := Bool.and_eq_true_iff.1 h
    rw [List.all_eq_true] at hblocks
    refine Bool.and_eq_true_iff.2 ⟨?_, List.all_eq_true.2 fun x hx => ?_⟩
    · simpa using hsign
    · have hmem : x ∈ (s.written[r]).blocks.set j true := by simpa using hx
      rcases List.mem_or_eq_of_mem_set hmem with hold | rfl
      · exact hblocks x hold
      · rfl
  | s k => rfl

theorem wasWritten_noteSign {s : State} {a : Operand} (h : wasWritten s .whole a = true) :
    wasWritten (noteSign s a) .whole a = true := by
  cases a with
  | g r => simp_all [wasWritten, Written.whole]
  | s k => rfl

/-- `s` is `s₀` with `x` in the cell `a`, all of it written, as far as build, arena and cells go. -/
structure Loaded (s₀ : State) (a : Operand) (x : Value) (s : State) : Prop where
  build : s.build = s₀.build
  atop : s.atop = s₀.atop
  cell_same : cell s a = x
  written : wasWritten s .whole a = true
  cell_ne : ∀ o, o ≠ a → cell s o = cell s₀ o

namespace Loaded

variable {s₀ s t : State} {a : Operand} {x : Value}

theorem live (h : Loaded s₀ a x s) (ha : live s₀ a = true) : live s a = true :=
  (congrFun (live_congr h.atop) a).trans ha

/-- `Loaded` speaks of these fields only. -/
theorem congr (h : Loaded s₀ a x s) (hbuild : t.build = s.build) (hatop : t.atop = s.atop) (hregs : t.regs = s.regs)
    (hslots : t.slots = s.slots) (hwritten : t.written = s.written) : Loaded s₀ a x t where
  build := hbuild.trans h.build
  atop := hatop.trans h.atop
  cell_same := by rw [cell_congr hregs hslots, h.cell_same]
  written := by rw [wasWritten_congr hwritten, h.written]
  cell_ne o ho := by rw [cell_congr hregs hslots, h.cell_ne o ho]

theorem setActions (h : Loaded s₀ a x s) (l : List HostAction) : Loaded s₀ a x { s with actions := l } :=
  h.congr rfl rfl rfl rfl rfl

theorem of_setActions {l : List HostAction} (h : Loaded { s₀ with actions := l } a x s) : Loaded s₀ a x s :=
  { h with cell_ne := fun o ho => (h.cell_ne o ho).trans (congrFun (cell_congr rfl rfl) o) }

theorem writeDin (h : Loaded s₀ a x s) (w : Word) : Loaded s₀ a x (writeDin w s) :=
  h.congr rfl rfl rfl rfl rfl

theorem setCell (h : Loaded s₀ a x s) (y : Value) : Loaded s₀ a y (setCell s a y) where
  build := (setCell_build s a y).trans h.build
  atop := (setCell_atop s a y).trans h.atop
  cell_same := cell_setCell_same s a y
  written := by rw [wasWritten_setCell, h.written]
  cell_ne o ho := by rw [cell_setCell_ne s y ho, h.cell_ne o ho]

/-- What a part write enters in the record keeps a whole register whole (R44). -/
theorem noteBlock (h : Loaded s₀ a x s) (j : Nat) : Loaded s₀ a x (noteBlock s a j) where
  build := (noteBlock_build s a j).trans h.build
  atop := (noteBlock_atop s a j).trans h.atop
  cell_same := by rw [cell_noteBlock, h.cell_same]
  written := wasWritten_noteBlock h.written j
  cell_ne o ho := by rw [cell_noteBlock, h.cell_ne o ho]

theorem noteSign (h : Loaded s₀ a x s) : Loaded s₀ a x (noteSign s a) where
  build := (noteSign_build s a).trans h.build
  atop := (noteSign_atop s a).trans h.atop
  cell_same := by rw [cell_noteSign, h.cell_same]
  written := wasWritten_noteSign h.written
  cell_ne o ho := by rw [cell_noteSign, h.cell_ne o ho]

/-- A whole write leaves the cell written whatever was written of it before. -/
theorem noteWhole_setCell (s : State) (a : Operand) (x : Value) :
    Loaded s a x (noteWhole (Machine.setCell s a x) a) where
  build := (noteWhole_build ..).trans (setCell_build s a x)
  atop := (noteWhole_atop ..).trans (setCell_atop s a x)
  cell_same := by rw [cell_noteWhole, cell_setCell_same]
  written := wasWritten_noteWhole _ a
  cell_ne o ho := by rw [cell_noteWhole, cell_setCell_ne s x ho]

end Loaded

/-! The blocks loaded so far. -/

/-- The `k` most significant blocks of `v`, the others zero, with sign `+1`. -/
def topBlocks (b : Build) (v : Value) (k : Nat) : Value :=
  ⟨.pos, v.mag / 2 ^ (b.B * (b.N - k)) * 2 ^ (b.B * (b.N - k))⟩

theorem topBlocks_zero {b : Build} {v : Value} (hv : v.mag < 2 ^ b.W) : topBlocks b v 0 = .zero := by
  rw [Build.W, Nat.mul_comm] at hv
  rw [topBlocks, Nat.sub_zero, Nat.div_eq_of_lt hv, Nat.zero_mul, Value.zero]

theorem topBlocks_N (b : Build) (v : Value) : topBlocks b v b.N = ⟨.pos, v.mag⟩ := by
  simp [topBlocks]

section

variable {b : Build} {k : Nat} (hk : k < b.N) (v : Value)
include hk

/-- The weights of the `k` most significant blocks begin above block `k`. -/
theorem mag_topBlocks : (topBlocks b v k).mag =
    v.mag / 2 ^ blockShift b k / 2 ^ b.B * 2 ^ b.B * 2 ^ blockShift b k := by
  have hshift : b.B * (b.N - k) = b.B + blockShift b k := by
    rw [blockShift, show b.N - k = 1 + (b.N - 1 - k) by omega, Nat.mul_add, Nat.mul_one]
  rw [topBlocks, hshift, pow_add, Nat.mul_assoc, Nat.div_div_eq_div_mul, Nat.mul_comm (2 ^ blockShift b k)]

theorem blk_topBlocks : blk b (topBlocks b v k) k = 0 := by
  rw [blk, mag_topBlocks hk, Nat.mul_div_cancel _ (Nat.two_pow_pos _), Nat.mul_mod_left]

/-- Block `k` written below the `k` blocks above it. -/
theorem setBlk_topBlocks : setBlk b (topBlocks b v k) k (blk b v k) = topBlocks b v (k + 1) := by
  have hnext : topBlocks b v (k + 1) = ⟨.pos, v.mag / 2 ^ blockShift b k * 2 ^ blockShift b k⟩ := by
    rw [topBlocks, blockShift, Nat.sub_sub, Nat.add_comm]
  rw [hnext, setBlk, blk_topBlocks hk, Nat.zero_mul, Nat.sub_zero, mag_topBlocks hk, blk, Nat.mod_mod, ← Nat.add_mul,
    Nat.div_add_mod']
  rfl

/-- A block of zeros is there already. -/
theorem topBlocks_succ_of_blk_eq_zero (hzero : blk b v k = 0) : topBlocks b v (k + 1) = topBlocks b v k := by
  rw [← setBlk_topBlocks hk, hzero, setBlk, blk_topBlocks hk]
  simp

end

/-! The actions of `LOADV`. -/

theorem exec_ldz {s : State} {a : Operand} (ha : live s a = true) :
    exec (.ldz a) s = .next (noteWhole (setCell s a .zero) a) :=
  withLive_of_live ha _

/-- R5: a block index fits the immediate field. -/
theorem toNat_ofNat_blockIndex {b : Build} (hb : b.Wf) {j : Nat} (hj : j < b.N) : (BitVec.ofNat 16 j).toNat = j := by
  obtain ⟨-, -, hB, -, hW, -⟩ := hb
  have hN : b.N ≤ b.W := Nat.le_mul_of_pos_right b.N hB
  rw [BitVec.toNat_ofNat, Nat.mod_eq_of_lt (by omega)]

section

variable {s₀ : State} {a : Operand} {v x : Value} (ha : live s₀ a = true) (hwf : a.wf s₀.build = true)

/-- R36. -/
theorem drives_writeDin (w : Word) : Drives [.csrWrite 5 w] (Loaded s₀ a x)
    fun s => Loaded s₀ a x s ∧ s.din.toNat = w.toNat % 2 ^ s₀.build.B := by
  refine .single (fun _ l h => h.setActions l) fun s h => ⟨_, rfl, rfl, h.writeDin w, ?_⟩
  rw [← h.build]
  exact toNat_ofNat_mod_two_pow w s.build.B

include ha hwf

theorem drives_ldz : Drives [issue (.ldz a)] (fun s => ∃ l, s = { s₀ with actions := l }) (Loaded s₀ a .zero) := by
  refine .issue (fun _ l ⟨_, hs⟩ => ⟨l, hs ▸ rfl⟩) (fun _ ⟨_, hs⟩ => hs ▸ hwf) fun s ⟨l, hs⟩ => ?_
  have hlive : live s a = true := (congrFun (live_congr (hs ▸ rfl)) a).trans ha
  have hloaded := Loaded.noteWhole_setCell s a .zero
  rw [hs] at hloaded
  exact ⟨_, exec_ldz hlive, hs ▸ hloaded.of_setActions⟩

theorem drives_wrb {j : Imm16} (hj : j.toNat < s₀.build.N) (d : Nat) :
    Drives [issue (.wrb a j)] (fun s => Loaded s₀ a x s ∧ s.din.toNat = d)
      (Loaded s₀ a (setBlk s₀.build x j.toNat d)) := by
  refine .issue (fun _ l ⟨h, hdin⟩ => ⟨h.setActions l, hdin⟩) (fun s ⟨h, _⟩ => ?_) fun s ⟨h, hdin⟩ => ?_
  · rw [WellFormed, h.build]
    exact Bool.and_eq_true_iff.2 ⟨hwf, decide_eq_true hj⟩
  · refine ⟨_, exec_wrb j (h.live ha), ?_⟩
    rw [h.build, h.cell_same, hdin]
    exact (h.setCell _).noteBlock _

theorem drives_setsgn (sb : Sign) : Drives [issue (.setsgn a sb)] (Loaded s₀ a x) (Loaded s₀ a ⟨sb, x.mag⟩) := by
  refine .issue (fun _ l h => h.setActions l) (fun s h => ?_) fun s h => ⟨_, exec_setsgn sb (h.live ha), ?_⟩
  · rw [WellFormed, h.build]
    exact hwf
  · rw [h.cell_same]
    exact (h.setCell _).noteSign

/-- A block of zeros is left out, because `LDZ` put zeros there. -/
theorem drives_loadBlock (hb : s₀.build.Wf) (v : Value) {k : Nat} (hk : k < s₀.build.N) :
    Drives (loadBlock s₀.build a v k) (Loaded s₀ a (topBlocks s₀.build v k))
      (Loaded s₀ a (topBlocks s₀.build v (k + 1))) := by
  unfold loadBlock
  split
  · rw [topBlocks_succ_of_blk_eq_zero hk v ‹_›]
    exact .nil fun _ h => h
  · have hindex := toNat_ofNat_blockIndex hb hk
    obtain ⟨-, -, -, hB, -⟩ := hb
    have hdin := drives_writeDin (s₀ := s₀) (a := a) (x := topBlocks s₀.build v k) (BitVec.ofNat 32 (blk s₀.build v k))
    rw [toNat_ofNat_blk hB, Nat.mod_eq_of_lt (blk_lt ..)] at hdin
    have hwrb := drives_wrb (x := topBlocks s₀.build v k) ha hwf (hindex.trans_lt hk) (blk s₀.build v k)
    rw [hindex, setBlk_topBlocks hk] at hwrb
    exact hdin.append hwrb

/-- The sign is `+1` from `LDZ`. -/
theorem drives_loadSign (sgn : Sign) (n : Nat) : Drives (if sgn = .neg then [issue (.setsgn a .neg)] else [])
    (Loaded s₀ a ⟨.pos, n⟩) (Loaded s₀ a ⟨sgn, n⟩) := by
  cases sgn with
  | pos => exact .nil fun _ h => h
  | neg => exact drives_setsgn (x := ⟨.pos, n⟩) ha hwf .neg

theorem drives_loadV (hb : s₀.build.Wf) (hv : v.mag < 2 ^ s₀.build.W) :
    Drives (loadV s₀.build a v) (fun s => ∃ l, s = { s₀ with actions := l }) (Loaded s₀ a v) := by
  have hblocks := Drives.range fun k hk => drives_loadBlock ha hwf hb v (k := k) hk
  rw [topBlocks_zero hv, topBlocks_N] at hblocks
  exact (drives_ldz ha hwf).append (hblocks.append (drives_loadSign ha hwf v.sgn v.mag))

end

/-- Settles O56. -/
theorem loadvLoadsConstant : Obligations.LoadvLoadsConstant := by
  intro s a v rest hb hwf ha hv hact
  obtain ⟨t, hrun, hrest, h⟩ := drives_loadV ha hwf hb hv s rest hact ⟨s.actions, rfl⟩
  exact ⟨t, hrun, hrest, h.cell_same, h.written, h.cell_ne⟩

end Sys2Proof.Machine

/-! SUPPORT and the obligation O57. `READV` sends the blocks of a cell from the most significant down, then the sign
(R99). -/

namespace Sys2Proof.Machine

/-- `s` is `s₀` with the replies `l` received since, newest first, as far as build, arena and cells go. -/
structure Replied (s₀ : State) (l : List Word) (s : State) : Prop where
  build : s.build = s₀.build
  atop : s.atop = s₀.atop
  cell : cell s = cell s₀
  replies : s.replies = l ++ s₀.replies

namespace Replied

variable {s₀ s t : State} {a : Operand} {l : List Word}

theorem refl (s : State) : Replied s [] s := ⟨rfl, rfl, rfl, rfl⟩

theorem live (h : Replied s₀ l s) (ha : live s₀ a = true) : live s a = true :=
  (congrFun (live_congr h.atop) a).trans ha

/-- `Replied` speaks of these fields only. -/
theorem congr (h : Replied s₀ l s) (hbuild : t.build = s.build) (hatop : t.atop = s.atop) (hregs : t.regs = s.regs)
    (hslots : t.slots = s.slots) (hreplies : t.replies = s.replies) : Replied s₀ l t :=
  ⟨hbuild.trans h.build, hatop.trans h.atop, (cell_congr hregs hslots).trans h.cell, hreplies.trans h.replies⟩

theorem setActions (h : Replied s₀ l s) (m : List HostAction) : Replied s₀ l { s with actions := m } :=
  h.congr rfl rfl rfl rfl rfl

theorem csrRead (h : Replied s₀ l s) (n : Fin 8) : Replied s₀ (csrValue s n :: l) (csrRead n s) :=
  ⟨h.build, h.atop, (cell_congr rfl rfl).trans h.cell, congrArg (csrValue s n :: ·) h.replies⟩

end Replied

theorem exec_getsgn {s : State} {a : Operand} (ha : live s a = true) :
    exec (.getsgn a) s = .next (setT (decide ((cell s a).sgn = .neg)) (noteRead s .sign a)) := by
  simp only [exec, execGetsgn, withCell_of_live ha]

/-- The replies to the first `k` block reads of `READV`, newest first. -/
def blockReplies (b : Build) (v : Value) (k : Nat) : List Word :=
  (List.range k).reverse.map fun j => BitVec.ofNat 32 (blk b v j)

theorem blockReplies_succ (b : Build) (v : Value) (k : Nat) :
    blockReplies b v (k + 1) = BitVec.ofNat 32 (blk b v k) :: blockReplies b v k := by
  simp [blockReplies, List.range_succ]

section

variable {s₀ : State} {a : Operand} {l : List Word} (ha : live s₀ a = true) (hwf : a.wf s₀.build = true)
include ha hwf

/-- `DOUT` takes the block, and the host reads it there. -/
theorem drives_readBlock (hb : s₀.build.Wf) {k : Nat} (hk : k < s₀.build.N) :
    Drives [issue (.rdb a (BitVec.ofNat 16 k)), .csrRead 6] (Replied s₀ l)
      (Replied s₀ (BitVec.ofNat 32 (blk s₀.build (cell s₀ a) k) :: l)) := by
  have hindex := toNat_ofNat_blockIndex hb hk
  refine .append (l := [_]) (Q := fun s => Replied s₀ l s ∧ s.dout = BitVec.ofNat 32 (blk s₀.build (cell s₀ a) k))
    (.issue (fun _ m h => h.setActions m) (fun s h => ?_) fun s h => ⟨_, exec_rdb _ (h.live ha), ?_, ?_⟩)
    (.single (fun _ m ⟨h, hdout⟩ => ⟨h.setActions m, hdout⟩) fun s ⟨h, hdout⟩ => ⟨_, rfl, rfl, hdout ▸ h.csrRead 6⟩)
  · rw [WellFormed, h.build]
    exact Bool.and_eq_true_iff.2 ⟨hwf, decide_eq_true (hindex.trans_lt hk)⟩
  · exact h.congr rfl rfl rfl rfl rfl
  · rw [h.build, h.cell, hindex]

/-- `T` takes the sign, and the host reads it in bit 0 of `STATUS`. -/
theorem drives_readSign : Drives [issue (.getsgn a), .csrRead 1] (Replied s₀ l)
    fun s => ∃ st : Word, Replied s₀ (st :: l) s ∧ st.getLsbD 0 = decide ((cell s₀ a).sgn = .neg) := by
  refine .append (l := [_]) (Q := fun s => Replied s₀ l s ∧ s.status.t = decide ((cell s₀ a).sgn = .neg))
    (.issue (fun _ m h => h.setActions m) (fun s h => ?_) fun s h => ⟨_, exec_getsgn (h.live ha), ?_, ?_⟩)
    (.single (fun _ m ⟨h, ht⟩ => ⟨h.setActions m, ht⟩) fun s ⟨h, ht⟩ =>
      ⟨_, rfl, rfl, _, h.csrRead 1, (statusWord_bits s.status).1.trans ht⟩)
  · rw [WellFormed, h.build]
    exact hwf
  · exact h.congr rfl rfl rfl rfl rfl
  · rw [h.cell]
    rfl

theorem drives_readV (hb : s₀.build.Wf) : Drives (readV s₀.build a) (Replied s₀ [])
    fun s => ∃ st : Word, Replied s₀ (st :: blockReplies s₀.build (cell s₀ a) s₀.build.N) s ∧
      st.getLsbD 0 = decide ((cell s₀ a).sgn = .neg) := by
  refine .append (.range (P := fun k => Replied s₀ (blockReplies s₀.build (cell s₀ a) k)) fun k hk => ?_)
    (drives_readSign ha hwf)
  rw [blockReplies_succ]
  exact drives_readBlock ha hwf hb hk

end

/-- Settles O57. -/
theorem readvReturnsValue : Obligations.ReadvReturnsValue := by
  intro s a rest hb hwf ha hact
  obtain ⟨t, hrun, hrest, st, h, hsign⟩ := drives_readV ha hwf hb s rest hact (.refl s)
  exact ⟨t, st, hrun, hrest, h.replies, hsign, congrFun h.cell⟩

end Sys2Proof.Machine

/-! SUPPORT and the obligations O29 to O31. The value functions of addition and subtraction said by the order of the
magnitudes, and the shape `a <- f(a, b)` of the arithmetic commands. -/

namespace Sys2Proof.Machine

/-! What `ADDV` and `SUBV` compute (R110, R111). -/

section

variable {b : Build} {x y : Value}

theorem addV_of_sgn_eq (h : x.sgn = y.sgn) : addV b x y = ⟨x.sgn, (x.mag + y.mag) % 2 ^ b.W⟩ := if_pos h

/-- The two rows of the truth table in which the first operand has the larger or equal magnitude give its sign. -/
theorem addV_of_mag_le (hsgn : x.sgn ≠ y.sgn) (hle : y.mag ≤ x.mag) : addV b x y = ⟨x.sgn, x.mag - y.mag⟩ := by
  simp only [addV, if_neg hsgn, decide_eq_true hle]
  cases x.sgn <;> rfl

/-- The two rows in which the second operand has the larger magnitude give its sign. -/
theorem addV_of_mag_lt (hsgn : x.sgn ≠ y.sgn) (hlt : x.mag < y.mag) : addV b x y = ⟨y.sgn, y.mag - x.mag⟩ := by
  simp only [addV, if_neg hsgn, decide_eq_false (Nat.not_le.2 hlt)]
  cases hx : x.sgn <;> cases hy : y.sgn <;> simp [hx, hy] at hsgn ⊢

theorem intVal_mag_add {p q : Sign} (hpq : p = q) (m n : Nat) :
    intVal ⟨p, m + n⟩ = intVal ⟨p, m⟩ + intVal ⟨q, n⟩ := by
  subst hpq
  cases p <;> simp only [intVal] <;> omega

theorem intVal_mag_sub {p q : Sign} {m n : Nat} (hpq : p ≠ q) (hle : n ≤ m) :
    intVal ⟨p, m - n⟩ = intVal ⟨p, m⟩ + intVal ⟨q, n⟩ := by
  cases p <;> cases q <;> simp only [intVal, ne_eq, not_true_eq_false] at hpq ⊢ <;> omega

/-- Only the same-sign sum can be truncated. -/
theorem intVal_addV (hfit : x.sgn = y.sgn → x.mag + y.mag < 2 ^ b.W) :
    intVal (addV b x y) = intVal x + intVal y := by
  by_cases hsgn : x.sgn = y.sgn
  · rw [addV_of_sgn_eq hsgn, Nat.mod_eq_of_lt (hfit hsgn), intVal_mag_add hsgn]
  · rcases Nat.lt_or_ge x.mag y.mag with hlt | hle
    · rw [addV_of_mag_lt hsgn hlt, intVal_mag_sub (Ne.symm hsgn) hlt.le, Int.add_comm]
    · rw [addV_of_mag_le hsgn hle, intVal_mag_sub hsgn hle]

theorem eq_signFlip_iff {p q : Sign} : p = signFlip q ↔ p ≠ q := by
  cases p <;> cases q <;> decide

theorem intVal_signFlip (v : Value) : intVal ⟨signFlip v.sgn, v.mag⟩ = -intVal v := by
  obtain ⟨sgn, m⟩ := v
  cases sgn <;> simp [intVal, signFlip]

theorem subV_of_sgn_ne (h : x.sgn ≠ y.sgn) : subV b x y = ⟨x.sgn, (x.mag + y.mag) % 2 ^ b.W⟩ :=
  addV_of_sgn_eq (eq_signFlip_iff.2 h)

theorem subV_of_mag_le (hsgn : x.sgn = y.sgn) (hle : y.mag ≤ x.mag) : subV b x y = ⟨x.sgn, x.mag - y.mag⟩ :=
  addV_of_mag_le (fun h => eq_signFlip_iff.1 h hsgn) hle

theorem subV_of_mag_lt (hsgn : x.sgn = y.sgn) (hlt : x.mag < y.mag) :
    subV b x y = ⟨signFlip y.sgn, y.mag - x.mag⟩ :=
  addV_of_mag_lt (fun h => eq_signFlip_iff.1 h hsgn) hlt

theorem intVal_subV (hfit : x.sgn ≠ y.sgn → x.mag + y.mag < 2 ^ b.W) :
    intVal (subV b x y) = intVal x - intVal y := by
  rw [subV, intVal_addV (y := ⟨signFlip y.sgn, y.mag⟩) fun h => hfit (eq_signFlip_iff.1 h), intVal_signFlip,
    Int.sub_eq_add_neg]

end

/-! The arithmetic commands of two operands: both are read, then the first is written. -/

theorem withCell_withCell_of_live {s : State} {a b : Operand} (ha : live s a = true) (hb : live s b = true)
    (k : Value → Value → State → Out) :
    (withCell s .whole a fun x s => withCell s .whole b (k x)) =
      k (cell s a) (cell s b) (noteRead (noteRead s .whole a) .whole b) := by
  simp only [withCell_of_live ha, withCell_of_live ((congrFun (live_noteRead ..) b).trans hb), cell_noteRead]

theorem onlyCells_setCell_noteRead_noteRead (s : State) (a b : Operand) (v : Value) :
    OnlyCells [a] s (setCell (noteRead (noteRead s .whole a) .whole b) a v) :=
  (onlyCells_noteRead s .whole a).trans ((onlyCells_noteRead _ .whole b).trans (onlyCells_setCell _ a v))

section

variable {s : State} {a b : Operand} (ha : live s a = true) (hb : live s b = true)
include ha hb

theorem exec_add : exec (.add a b) s =
    .next (setCell (noteRead (noteRead s .whole a) .whole b) a (addV s.build (cell s a) (cell s b))) := by
  simp only [exec, execAdd, withCell_withCell_of_live ha hb, noteRead_build]

theorem exec_sub : exec (.sub a b) s =
    .next (setCell (noteRead (noteRead s .whole a) .whole b) a (subV s.build (cell s a) (cell s b))) := by
  simp only [exec, execSub, withCell_withCell_of_live ha hb, noteRead_build]

theorem exec_abssub : exec (.abssub a b) s =
    if (cell s a).mag < (cell s b).mag then .fault .absSubUnderflow
    else .next (setCell (noteRead (noteRead s .whole a) .whole b) a
      ⟨(cell s a).sgn, (cell s a).mag - (cell s b).mag⟩) := by
  simp only [exec, execAbssub, withCell_withCell_of_live ha hb]

end

/-- Settles O29: the cell written is `addV` of the operands, whose four rows give the sign of the larger magnitude. -/
theorem addIsSignedTruncatingSum : Obligations.AddIsSignedTruncatingSum := by
  intro s a b ha hb
  refine ⟨rfl, _, exec_add ha hb, onlyCells_setCell_noteRead_noteRead s a b _, ?_⟩
  rw [cell_setCell_same]
  have hpn {p q : Sign} (hp : p = .pos) (hq : q = .neg) : p ≠ q := by simp [hp, hq]
  refine ⟨addV_of_sgn_eq, fun hx hy hle => ?_, fun hx hy hlt => ?_, fun hx hy hle => ?_, fun hx hy hlt => ?_,
    intVal_addV⟩
  · rw [addV_of_mag_le (hpn hx hy) hle, hx]
  · rw [addV_of_mag_lt (hpn hx hy) hlt, hy]
  · rw [addV_of_mag_le (hpn hy hx).symm hle, hx]
  · rw [addV_of_mag_lt (hpn hy hx).symm hlt, hy]

/-- Settles O30: the cell written is `addV` of the receiver and the flipped operand. -/
theorem subIsSignedTruncatingDifference : Obligations.SubIsSignedTruncatingDifference := by
  intro s a b ha hb
  refine ⟨rfl, _, exec_sub ha hb, onlyCells_setCell_noteRead_noteRead s a b _, ?_⟩
  rw [cell_setCell_same]
  refine ⟨subV_of_sgn_ne, subV_of_mag_le, fun hx hy hlt => ?_, fun hx hy hlt => ?_, intVal_subV⟩
  · rw [subV_of_mag_lt (hx.trans hy.symm) hlt, hy, signFlip]
  · rw [subV_of_mag_lt (hx.trans hy.symm) hlt, hy, signFlip]

/-- Settles O31: U1 is the one guard between the reads and the write. -/
theorem abssubSubtractsMagnitudes : Obligations.AbssubSubtractsMagnitudes := by
  intro s a b ha hb
  rw [exec_abssub ha hb]
  refine ⟨rfl, fun hle => ?_, fun hlt => if_pos hlt⟩
  exact ⟨_, if_neg (Nat.not_lt.2 hle), onlyCells_setCell_noteRead_noteRead s a b _, cell_setCell_same ..⟩

end Sys2Proof.Machine

/-! SUPPORT and the obligations O32 to O35. Products and quotients of signed values by sign and magnitude, the four
sign rows of the remainder (R125), and the shift-subtract loop of R124. -/

namespace Sys2Proof.Machine

theorem signMul_eq_pos_iff {p q : Sign} : signMul p q = .pos ↔ p = q := by
  cases p <;> cases q <;> decide

theorem intVal_signMul_mul (p q : Sign) (m n : Nat) :
    intVal ⟨signMul p q, m * n⟩ = intVal ⟨p, m⟩ * intVal ⟨q, n⟩ := by
  cases p <;> cases q <;> simp [intVal, signMul]

theorem intVal_signMul_div (p q : Sign) (m n : Nat) :
    intVal ⟨signMul p q, m / n⟩ = (intVal ⟨p, m⟩).tdiv (intVal ⟨q, n⟩) := by
  cases p <;> cases q <;> simp [intVal, signMul]

/-- Magnitudes below `2 ^ H` are their own low halves. -/
theorem intVal_mulV {b : Build} {x y : Value} (hx : x.mag < 2 ^ b.H) (hy : y.mag < 2 ^ b.H) :
    intVal (mulV b x y) = intVal x * intVal y := by
  rw [mulV, Nat.mod_eq_of_lt hx, Nat.mod_eq_of_lt hy, intVal_signMul_mul]

theorem intVal_divV (x m : Value) : intVal (divV x m) = (intVal x).tdiv (intVal m) :=
  intVal_signMul_div ..

/-! The sign rows of `MODV` (R122, R125). -/

section

variable {b : Build} {x m : Value}

theorem modV_of_pos (hx : x.sgn = .pos) : modV b x m = ⟨.pos, x.mag % m.mag⟩ := if_pos hx

theorem modV_of_mod_eq_zero (hr : x.mag % m.mag = 0) : modV b x m = ⟨.pos, 0⟩ := by
  by_cases hx : x.sgn = .pos
  · rw [modV_of_pos hx, hr]
  · simp only [modV, if_neg hx, if_pos hr]

/-- The normalising add of the modulus. -/
theorem modV_of_neg (hx : x.sgn = .neg) (hr : x.mag % m.mag ≠ 0) :
    modV b x m = addV b ⟨.neg, x.mag % m.mag⟩ m := by
  simp only [modV, hx, reduceCtorEq, if_false, if_neg hr]

/-- The modulus outweighs the negative remainder. -/
theorem modV_of_neg_of_pos (hx : x.sgn = .neg) (hm : m.sgn = .pos) (h0 : m.mag ≠ 0) (hr : x.mag % m.mag ≠ 0) :
    modV b x m = ⟨.pos, m.mag - x.mag % m.mag⟩ := by
  rw [modV_of_neg hx hr, addV_of_mag_lt (by simp [hm]) (Nat.mod_lt _ (Nat.pos_of_ne_zero h0)), hm]

theorem modV_of_neg_of_neg (hx : x.sgn = .neg) (hm : m.sgn = .neg) (hr : x.mag % m.mag ≠ 0) :
    modV b x m = ⟨.neg, (x.mag % m.mag + m.mag) % 2 ^ b.W⟩ := by
  rw [modV_of_neg hx hr, addV_of_sgn_eq hm.symm]

theorem intVal_modV (hm : m.sgn = .pos) (h0 : m.mag ≠ 0) : intVal (modV b x m) = intVal x % (m.mag : Int) := by
  cases hx : x.sgn with
  | pos => simp [modV_of_pos hx, intVal, hx]
  | neg =>
    have hneg : intVal x = -(x.mag : Int) := by simp only [intVal, hx]
    rw [hneg, Int.neg_emod]
    by_cases hr : x.mag % m.mag = 0
    · rw [modV_of_mod_eq_zero hr, if_pos (Int.natCast_dvd_natCast.2 (Nat.dvd_of_mod_eq_zero hr))]
      rfl
    · have hlt := Nat.mod_lt x.mag (Nat.pos_of_ne_zero h0)
      rw [modV_of_neg_of_pos hx hm h0 hr,
        if_neg fun hd => hr (Nat.mod_eq_zero_of_dvd (Int.natCast_dvd_natCast.1 hd))]
      simp only [intVal, Nat.cast_sub hlt.le, Int.natCast_mod, Int.natAbs_natCast]

end

section

variable {s : State} {a b : Operand} (ha : live s a = true) (hb : live s b = true)
include ha hb

theorem exec_mul : exec (.mul a b) s =
    .next (setCell (noteRead (noteRead s .whole a) .whole b) a (mulV s.build (cell s a) (cell s b))) := by
  simp only [exec, execMul, withCell_withCell_of_live ha hb, noteRead_build]

theorem exec_mod : exec (.mod a b) s =
    if (cell s b).mag = 0 then .fault .zeroModulus
    else .next (setCell (noteRead (noteRead s .whole a) .whole b) a (modV s.build (cell s a) (cell s b))) := by
  simp only [exec, execMod, withCell_withCell_of_live ha hb, noteRead_build]

theorem exec_div : exec (.div a b) s =
    if (cell s b).mag = 0 then .fault .zeroModulus
    else .next (setCell (noteRead (noteRead s .whole a) .whole b) a (divV (cell s a) (cell s b))) := by
  simp only [exec, execDiv, withCell_withCell_of_live ha hb]

end

/-- Settles O32: the cell written is `mulV` of the operands, whose factors are below `2 ^ H`. -/
theorem mulMultipliesLowHalves : Obligations.MulMultipliesLowHalves := by
  intro s a b ha hb
  refine ⟨rfl, _, exec_mul ha hb, onlyCells_setCell_noteRead_noteRead s a b _, ?_⟩
  rw [cell_setCell_same]
  exact ⟨rfl, signMul_eq_pos_iff, fun hwf => mulV_mag_lt hwf _ _, intVal_mulV⟩

/-- Settles O33: past the guard of U3 the cell written is `modV` of the operands, read row by row. -/
theorem modReducesToResidue : Obligations.ModReducesToResidue := by
  intro s a b ha hb
  rw [exec_mod ha hb]
  refine ⟨rfl, fun h0 => if_pos h0, fun h0 =>
    ⟨_, if_neg h0, onlyCells_setCell_noteRead_noteRead s a b _, ?_⟩⟩
  rw [cell_setCell_same]
  exact ⟨modV_of_pos, modV_of_mod_eq_zero, fun hx hm => modV_of_neg_of_pos hx hm h0, modV_of_neg_of_neg,
    fun hm => intVal_modV hm h0⟩

/-- Settles O34: past the guard of U3 the cell written is `divV` of the operands. -/
theorem divTruncatesTowardZero : Obligations.DivTruncatesTowardZero := by
  intro s a b ha hb
  rw [exec_div ha hb]
  refine ⟨rfl, fun h0 => if_pos h0, fun h0 =>
    ⟨_, if_neg h0, onlyCells_setCell_noteRead_noteRead s a b _, ?_⟩⟩
  rw [cell_setCell_same]
  exact ⟨rfl, signMul_eq_pos_iff, intVal_divV _ _⟩

/-! The shift-subtract loop (R124). -/

section

variable {a m : Nat} (hm : 1 ≤ m) (hle : m ≤ a)
include hm hle

theorem le_greatestShift_iff {k : Nat} : k ≤ greatestShift a m ↔ m * 2 ^ k ≤ a := by
  rw [greatestShift, Nat.le_log2 (Nat.div_pos hle hm).ne', Nat.le_div_iff_mul_le hm, Nat.mul_comm]

/-- A round takes the leading bit off the quotient that is left. -/
theorem div_sub_greatestShift_lt :
    (a - m * 2 ^ greatestShift a m) / m < 2 ^ greatestShift a m := by
  have hnext : a < m * 2 ^ (greatestShift a m + 1) :=
    Nat.lt_of_not_le fun h => Nat.not_succ_le_self _ ((le_greatestShift_iff hm hle).2 h)
  rw [pow_succ, ← Nat.mul_assoc] at hnext
  exact Nat.div_lt_of_lt_mul (by omega)

end

theorem shiftSubtract_of_lt {a m : Nat} (hlt : a < m) (n q : Nat) :
    shiftSubtract n a m q = some (q + a / m, a % m) := by
  rw [Nat.div_eq_of_lt hlt, Nat.mod_eq_of_lt hlt, Nat.add_zero]
  cases n <;> exact if_neg (Nat.not_le.2 hlt)

/-- A quotient of `n` bits ends the loop within `n` rounds. -/
theorem shiftSubtract_of_div_lt {m : Nat} (hm : 1 ≤ m) {n a : Nat} (hq : a / m < 2 ^ n) (q : Nat) :
    shiftSubtract n a m q = some (q + a / m, a % m) := by
  induction n generalizing a q with
  | zero => exact shiftSubtract_of_lt ((Nat.div_eq_zero_iff_lt hm).1 (Nat.lt_one_iff.1 hq)) ..
  | succ n ih =>
    by_cases hle : m ≤ a
    · have hshift := (le_greatestShift_iff hm hle).1 le_rfl
      have hbit : 2 ^ greatestShift a m ≤ a / m := (Nat.le_div_iff_mul_le hm).2 (Nat.mul_comm m _ ▸ hshift)
      have hk : greatestShift a m ≤ n :=
        Nat.lt_succ_iff.1 ((Nat.pow_lt_pow_iff_right Nat.one_lt_two).1 (hbit.trans_lt hq))
      have hrest := (div_sub_greatestShift_lt hm hle).trans_le (Nat.pow_le_pow_right Nat.two_pos hk)
      rw [shiftSubtract, if_pos hle, ih hrest, Nat.sub_mul_div, Nat.sub_mul_mod hshift, Nat.add_assoc,
        Nat.add_sub_cancel' hbit]
    · exact shiftSubtract_of_lt (Nat.not_le.1 hle) ..

/-- Settles O35: each round takes the leading bit off a quotient of at most `W` bits. -/
theorem shiftSubtractLoopDivides : Obligations.ShiftSubtractLoopDivides := by
  refine ⟨fun a m hm hle => ⟨(le_greatestShift_iff hm hle).1 le_rfl, fun k => (le_greatestShift_iff hm hle).2⟩,
    fun b a m hm ha => ?_⟩
  rw [shiftSubtract_of_div_lt hm ((Nat.div_le_self a m).trans_lt ha), Nat.zero_add]

end Sys2Proof.Machine

/-! SUPPORT and the obligation O36. `POWMOD` by its three reads, its two guards and the closed form of its loop. -/

namespace Sys2Proof.Machine

/-- The closed form of R130: exponent 0 leaves the accumulator at `ONE`, unreduced. -/
theorem powModV_eq {b : Build} {e : Nat} (he : e < 2 ^ b.W) (x m : Nat) :
    powModV b x e m = if e = 0 then 1 else (x % m) ^ e % m := by
  rw [powModV, powLoop_eq m _ _ _ _ he, Nat.one_mul]

theorem exec_powmod {s : State} {a b c : Operand} (ha : live s a = true) (hb : live s b = true)
    (hc : live s c = true) : exec (.powmod a b c) s =
    if (cell s c).mag = 0 then .fault .zeroModulus
    else if 2 ^ s.build.H < (cell s c).mag then .fault .modulusTooWide
    else .next (setCell (noteRead (noteRead (noteRead s .whole a) .whole b) .whole c) a
      ⟨.pos, powModV s.build (cell s a).mag (cell s b).mag (cell s c).mag⟩) := by
  have hc' : live (noteRead (noteRead s .whole a) .whole b) c = true := by simpa only [live_noteRead] using hc
  simp only [exec, execPowmod, withCell_withCell_of_live ha hb, withCell_of_live hc', cell_noteRead, noteRead_build]

/-- Settles O36: U3 and U4 are the guards between the reads and the write, and the cell written is `powModV` of the
magnitudes. -/
theorem powmodIsModularPower : Obligations.PowmodIsModularPower := by
  intro s a b c ha hb hc
  rw [exec_powmod ha hb hc]
  refine ⟨rfl, fun h0 => if_pos h0, fun hwide => ?_, fun hpos hfit hexp => ?_⟩
  · rw [if_neg (Nat.ne_zero_of_lt hwide), if_pos hwide]
  · rw [if_neg (Nat.ne_of_gt hpos), if_neg (Nat.not_lt.2 hfit)]
    have hreads : OnlyCells [] s (noteRead (noteRead (noteRead s .whole a) .whole b) .whole c) :=
      ((onlyCells_noteRead s .whole a).trans (onlyCells_noteRead _ .whole b)).trans (onlyCells_noteRead _ .whole c)
    refine ⟨_, rfl, hreads.trans (onlyCells_setCell _ a _), ?_⟩
    rw [cell_setCell_same, powModV_eq hexp]

end Sys2Proof.Machine

/-! SUPPORT and the obligations O37 to O39. The shifts as updates of one cell by a value function, the laws of those
value functions, and the comparisons of magnitudes. -/

namespace Sys2Proof.Machine

/-! What `SHL` and `SHR` compute (R140, R141). -/

/-- The value function of R140. -/
def shlV (n : Nat) (b : Build) (v : Value) : Value := ⟨v.sgn, v.mag * 2 ^ n % 2 ^ b.W⟩

/-- The value function of R141. -/
def shrV (n : Nat) (v : Value) : Value := ⟨v.sgn, v.mag / 2 ^ n⟩

section

variable {m n : Nat} {b : Build} {v : Value}

theorem mag_shlV_of_W_le (hn : b.W ≤ n) : (shlV n b v).mag = 0 :=
  Nat.mod_eq_zero_of_dvd (Dvd.dvd.mul_left (Nat.pow_dvd_pow 2 hn) v.mag)

theorem mag_shrV_of_W_le (hv : v.mag < 2 ^ b.W) (hn : b.W ≤ n) : (shrV n v).mag = 0 :=
  Nat.div_eq_of_lt (hv.trans_le (Nat.pow_le_pow_right Nat.two_pos hn))

/-- Left then right loses the top `n` bits, all of them when there are no more than `n`. -/
theorem shrV_shlV : shrV n (shlV n b v) = ⟨v.sgn, v.mag % 2 ^ (b.W - n)⟩ := by
  rcases Nat.le_total n b.W with hn | hn
  · have hW : 2 ^ b.W = 2 ^ (b.W - n) * 2 ^ n := by rw [← Nat.pow_add, Nat.sub_add_cancel hn]
    rw [shrV, shlV, hW, Nat.mul_mod_mul_right, Nat.mul_div_cancel _ (Nat.two_pow_pos n)]
  · rw [shrV, mag_shlV_of_W_le hn, Nat.zero_div, Nat.sub_eq_zero_of_le hn, Nat.pow_zero, Nat.mod_one, shlV]

/-- Right then left loses the bottom `n` bits, and nothing reaches past the top. -/
theorem shlV_shrV (hv : v.mag < 2 ^ b.W) : shlV n b (shrV n v) = ⟨v.sgn, v.mag - v.mag % 2 ^ n⟩ := by
  have hfit : v.mag / 2 ^ n * 2 ^ n < 2 ^ b.W := (Nat.div_mul_le_self ..).trans_lt hv
  rw [shlV, shrV, Nat.mod_eq_of_lt hfit, Nat.div_mul_self_eq_mod_sub_self]

theorem shlV_shlV : shlV m b (shlV n b v) = shlV (n + m) b v := by
  rw [shlV, shlV, shlV, Nat.mod_mul_mod, Nat.mul_assoc, ← Nat.pow_add]

theorem shrV_shrV : shrV m (shrV n v) = shrV (n + m) v := by
  rw [shrV, shrV, shrV, Nat.div_div_eq_div_mul, ← Nat.pow_add]

end

/-! A command that reads one cell and writes a function of its value back to it. -/

/-- On a live cell `a` the command is `a <- f(a)`, where `f` may look at the build. -/
def UpdatesCell (i : Instr) (a : Operand) (f : Build → Value → Value) : Prop :=
  ∀ s, live s a = true → exec i s = .next (setCell (noteRead s .whole a) a (f s.build (cell s a)))

section

variable {i j : Instr} {a : Operand} {f g : Build → Value → Value} {s : State}

theorem UpdatesCell.exec_next (hi : UpdatesCell i a f) (ha : live s a = true) :
    ∃ t, exec i s = .next t ∧ OnlyCells [a] s t ∧ cell t a = f s.build (cell s a) :=
  ⟨_, hi s ha, (onlyCells_noteRead s .whole a).trans (onlyCells_setCell ..), cell_setCell_same ..⟩

/-- The second update finds the cell live, the build as it was, and what the first one wrote. -/
theorem UpdatesCell.execAll_pair {x : Value} (hi : UpdatesCell i a f) (hj : UpdatesCell j a g) (ha : live s a = true)
    (hx : g s.build (f s.build (cell s a)) = x) : ∃ t, execAll [i, j] s = .next t ∧ cell t a = x := by
  have hlive : live (setCell (noteRead s .whole a) a (f s.build (cell s a))) a = true := by
    rwa [live_setCell, live_noteRead]
  simp only [execAll, hi s ha, hj _ hlive]
  refine ⟨_, rfl, ?_⟩
  rw [cell_setCell_same, cell_setCell_same, setCell_build, noteRead_build, hx]

end

/-- R140. -/
theorem shl_updatesCell (a : Operand) (n : Imm16) : UpdatesCell (.shl a n) a (shlV n.toNat) := fun s ha => by
  simp only [exec, execShl, withCell_of_live ha, noteRead_build, shlV]

/-- R141. -/
theorem shr_updatesCell (a : Operand) (n : Imm16) : UpdatesCell (.shr a n) a fun _ => shrV n.toNat := fun s ha => by
  simp only [exec, execShr, withCell_of_live ha, shrV]

/-- Settles O37: the shifts update the cell by `shlV` and `shrV`. -/
theorem shiftsMoveMagnitude : Obligations.ShiftsMoveMagnitude := by
  intro s a n ha
  obtain ⟨t, hl, hl_only, hl_cell⟩ := (shl_updatesCell a n).exec_next ha
  obtain ⟨u, hr, hr_only, hr_cell⟩ := (shr_updatesCell a n).exec_next ha
  refine ⟨⟨rfl, t, hl, hl_only, hl_cell, fun hn => ?_⟩, rfl, u, hr, hr_only, hr_cell, fun hv hn => ?_⟩
  · rw [hl_cell, mag_shlV_of_W_le hn]
  · rw [hr_cell, mag_shrV_of_W_le hv hn]

/-- Settles O38: a run of two shifts composes their value functions, and each law is one of theirs. -/
theorem shiftLaws : Obligations.ShiftLaws := by
  intro s a n m ha hv
  have hl (k : Imm16) := shl_updatesCell a k
  have hr (k : Imm16) := shr_updatesCell a k
  refine ⟨?_, ?_, ?_, ?_⟩
  · exact (hl n).execAll_pair (hr n) ha shrV_shlV
  · exact (hr n).execAll_pair (hl n) ha (shlV_shrV hv)
  · exact (hl n).execAll_pair (hl m) ha shlV_shlV
  · exact (hr n).execAll_pair (hr m) ha shrV_shrV

/-! The comparisons (R143, R144). -/

section

variable {s : State} {a b : Operand} (ha : live s a = true) (hb : live s b = true)
include ha hb

theorem exec_absgt : exec (.absgt a b) s =
    .next (setT (decide ((cell s b).mag < (cell s a).mag)) (noteRead (noteRead s .whole a) .whole b)) := by
  simp only [exec, execAbsgt, withCell_withCell_of_live ha hb]

theorem exec_absge : exec (.absge a b) s =
    .next (setT (decide ((cell s b).mag ≤ (cell s a).mag)) (noteRead (noteRead s .whole a) .whole b)) := by
  simp only [exec, execAbsge, withCell_withCell_of_live ha hb]

end

/-- Settles O39: past the two reads `T` takes the decision of the order of the magnitudes. -/
theorem comparisonsSetT : Obligations.ComparisonsSetT := by
  intro s a b ha hb
  have honly (c : Bool) : OnlyT s (setT c (noteRead (noteRead s .whole a) .whole b)) :=
    ((onlyCells_noteRead s .whole a).trans (onlyCells_noteRead _ .whole b)).onlyT_setT c
  exact ⟨⟨rfl, _, exec_absgt ha hb, honly _, decide_eq_true_iff⟩, rfl, _, exec_absge ha hb, honly _, decide_eq_true_iff⟩

end Sys2Proof.Machine

/-! SUPPORT and the obligations O19 and O45 to O47. What each arena command does, and that the others leave the arena
alone. -/

namespace Sys2Proof.Machine

section

variable {s : State}

theorem exec_aopen_of_full (h : s.build.markCap = some s.marks.length) : exec .aopen s = .next (raise .afull s) :=
  congrArg _ (if_pos h)

theorem exec_aopen_of_not_full (h : s.build.markCap ≠ some s.marks.length) :
    exec .aopen s = .next { s with marks := s.atop :: s.marks } :=
  congrArg _ (if_neg h)

theorem exec_aget_of_full (h : s.build.arenaCap = some s.atop) : exec .aget s = .next (raise .afull s) :=
  congrArg _ (if_pos h)

theorem exec_aget_of_not_full (h : s.build.arenaCap ≠ some s.atop) :
    exec .aget s = .next { s with slots := slotPut s.slots s.atop .zero, res := s.atop, atop := s.atop + 1 } :=
  congrArg _ (if_neg h)

theorem exec_aclose_of_marks_nil (h : s.marks = []) : exec .aclose s = .next (raise .aerr s) := by
  simp only [exec, execAclose, h]

theorem exec_aclose_of_marks_cons {m : Nat} {rest : List Nat} (h : s.marks = m :: rest) :
    exec .aclose s = .next { s with slots := s.slots.take m, atop := m, marks := rest } := by
  simp only [exec, execAclose, h]

end

/-- Settles O45. -/
theorem aopenPushesMark : Obligations.AopenPushesMark :=
  fun _ => ⟨rfl, exec_aopen_of_not_full, exec_aopen_of_full⟩

/-- Settles O46: the slots after it are those before it with slot `ATOP` replaced by `ZERO`. -/
theorem agetHandsOutZeroSlot : Obligations.AgetHandsOutZeroSlot := by
  refine fun s => ⟨rfl, fun hcap => ⟨_, exec_aget_of_not_full hcap, ?_, fun k hk => ?_⟩, exec_aget_of_full⟩
  · rw [slotAt_slotPut, if_pos rfl, Value.zero]
  · rw [slotAt_slotPut, if_neg hk]

/-- Settles O47: the slots after it are those before it, cut off at the mark. -/
theorem aclosePopsMark : Obligations.AclosePopsMark := by
  refine fun s => ⟨rfl, exec_aclose_of_marks_nil, fun m rest hmarks => ?_⟩
  exact ⟨_, exec_aclose_of_marks_cons hmarks, fun _ hk => slotAt_take hk, fun _ hk => decide_eq_false (Nat.not_lt.2 hk)⟩

/-- Settles O19: `CLRST` writes sticky flags only, and the frame of the others holds the arena. -/
theorem onlyArenaCommandsMoveTheArena : Obligations.OnlyArenaCommandsMoveTheArena := by
  intro i s t h harena
  by_cases hi : i = .clrst
  · subst hi
    cases h
    exact ⟨rfl, rfl, rfl, fun hne => absurd rfl hne, fun _ _ _ => rfl⟩
  · have hframe := exec_frame harena hi s t h
    exact ⟨hframe.atop, hframe.marks, hframe.res, fun _ => ⟨hframe.aerr, hframe.afull⟩, fun k _ => hframe.slots k⟩

end Sys2Proof.Machine

/-! SUPPORT and the obligation O13. What outlives a command in the model's record (R210, R229; log entries 2 and 5). -/

namespace Sys2Proof.Machine

/-- An `AFULL` on the record of `s` is on that of `t`; a set `AFULL` is on record in `t` if it was in `s`. -/
def KeepsAfull (s t : State) : Prop :=
  (s.record.afull = true → t.record.afull = true) ∧
    ((s.status.afull = true → s.record.afull = true) → t.status.afull = true → t.record.afull = true)

/-- With the record as it was it is enough that no `AFULL` is newly set. -/
theorem keepsAfull_of_eq {s t : State} (hrecord : t.record.afull = s.record.afull)
    (hstatus : t.status.afull = true → s.status.afull = true) : KeepsAfull s t :=
  ⟨hrecord.trans, fun hs ht => hrecord.trans (hs (hstatus ht))⟩

/-- R184: the one update that sets `AFULL` enters it in the record. -/
theorem keepsAfull_ite_raise {c : Prop} [Decidable c] {s t : State} (h : KeepsAfull s t) :
    KeepsAfull s (if c then raise .afull s else t) := by
  split
  · exact ⟨fun _ => rfl, fun _ _ => rfl⟩
  · exact h

theorem exec_keepsAfull (i : Instr) (s : State) : NextMeets (KeepsAfull s) (exec i s) := by
  have hother (harena : isArena i = false) (hclrst : i ≠ .clrst) : NextMeets (KeepsAfull s) (exec i s) := by
    intro t h
    have hframe := exec_frame harena hclrst s t h
    exact keepsAfull_of_eq hframe.recordAfull hframe.afull.symm.trans
  cases i with
  | aopen | aget => exact .next (keepsAfull_ite_raise (keepsAfull_of_eq rfl id))
  | aclose =>
    cases hmarks : s.marks with
    | nil =>
      rw [exec_aclose_of_marks_nil hmarks]
      exact .next (keepsAfull_of_eq rfl id)
    | cons m rest =>
      rw [exec_aclose_of_marks_cons hmarks]
      exact .next (keepsAfull_of_eq rfl id)
  | clrst => exact .next (keepsAfull_of_eq rfl nofun)
  | _ => exact hother rfl nofun

/-- `KeepsAfull`, and a read of a never-written register stays on record. -/
def RecordOutlives (s t : State) : Prop :=
  (s.record.afull = true → t.record.afull = true) ∧ (s.record.unwritten = true → t.record.unwritten = true) ∧
    ((s.status.afull = true → s.record.afull = true) → t.status.afull = true → t.record.afull = true)

theorem recordOutlives_of_eq {s t : State} (hrecord : t.record = s.record) (hstatus : t.status.afull = s.status.afull) :
    RecordOutlives s t := by
  simp only [RecordOutlives, hrecord, hstatus, imp_self, and_self]

theorem exec_recordOutlives (i : Instr) (s : State) : NextMeets (RecordOutlives s) (exec i s) := by
  intro t h
  obtain ⟨hafull, hset⟩ := exec_keepsAfull i s t h
  refine ⟨hafull, fun hs => ?_, hset⟩
  rw [exec_recordsReads i s t h, hs, Bool.true_or]

/-- Settles O13: only a command adds to the record, and of the host's actions only `reset` erases it. -/
theorem recordOutlivesSteps : Obligations.RecordOutlivesSteps := by
  intro s t h hreset
  change RecordOutlives s t
  rcases step_cases h with ⟨-, rfl⟩ | ⟨n, rest, -, rfl⟩ | ⟨n, w, rest, -, -, rfl⟩ | ⟨rest, hact, -⟩ |
    ⟨w, rest, i, -, -, hexec⟩ | ⟨w, rest, r, -, -, rfl⟩
  · exact recordOutlives_of_eq rfl rfl
  · exact recordOutlives_of_eq rfl rfl
  · unfold csrWrite
    split <;> exact recordOutlives_of_eq rfl rfl
  · exact absurd hact (hreset rest)
  · exact exec_recordOutlives i { s with actions := rest } t hexec
  · exact recordOutlives_of_eq rfl rfl

end Sys2Proof.Machine

/-! SUPPORT and the obligation O48. Runs of commands one after another, and what a run inside a scope of the arena keeps
(R183). -/

namespace Sys2Proof.Machine

/-! Runs (`execAll`). -/

theorem execAll_cons_next {i : Instr} {l : List Instr} {s t : State} (h : execAll (i :: l) s = .next t) :
    ∃ u, exec i s = .next u ∧ execAll l u = .next t := by
  rw [execAll] at h
  split at h
  · exact ⟨_, ‹_›, h⟩
  · cases h
  · cases h

theorem execAll_append_next {l m : List Instr} {s t : State} (h : execAll (l ++ m) s = .next t) :
    ∃ u, execAll l s = .next u ∧ execAll m u = .next t := by
  induction l generalizing s with
  | nil => exact ⟨s, rfl, h⟩
  | cons i l ih =>
    obtain ⟨v, hi, hrest⟩ := execAll_cons_next h
    obtain ⟨u, hl, hm⟩ := ih hrest
    exact ⟨u, by rw [execAll, hi]; exact hl, hm⟩

theorem execAll_singleton_next {i : Instr} {s t : State} (h : execAll [i] s = .next t) : exec i s = .next t := by
  obtain ⟨u, hi, hu⟩ := execAll_cons_next h
  cases hu
  exact hi

/-- With no `AFULL` on record after a command there was none before it. -/
theorem recordAfull_of_exec {i : Instr} {s t : State} (h : exec i s = .next t) (ht : t.record.afull = false) :
    s.record.afull = false :=
  Bool.eq_false_of_not_eq_true fun hs => Bool.false_ne_true (ht.symm.trans ((exec_keepsAfull i s t h).1 hs))

theorem recordAfull_of_execAll {l : List Instr} {s t : State} (h : execAll l s = .next t)
    (ht : t.record.afull = false) : s.record.afull = false := by
  induction l generalizing s with
  | nil =>
    cases h
    exact ht
  | cons i l ih =>
    obtain ⟨u, hi, hl⟩ := execAll_cons_next h
    exact recordAfull_of_exec hi (ih hl)

/-! What a run inside a scope keeps. -/

/-- From `s` to `t` the arena only grew: the marks are the same, no live slot died, and every cell live in `s` but `ds`
keeps its content. -/
structure KeepsScope (ds : List Operand) (s t : State) : Prop where
  atop : s.atop ≤ t.atop
  marks : t.marks = s.marks
  cells : ∀ o, live s o = true → o ∉ ds → cell t o = cell s o

theorem live_mono {s t : State} (h : s.atop ≤ t.atop) {o : Operand} (ho : live s o = true) : live t o = true := by
  cases o with
  | g r => rfl
  | s k => exact decide_eq_true ((of_decide_eq_true ho).trans_le h)

theorem KeepsScope.trans {ds es : List Operand} {s t u : State} (h : KeepsScope ds s t) (h' : KeepsScope es t u) :
    KeepsScope (ds ++ es) s u where
  atop := h.atop.trans h'.atop
  marks := h'.marks.trans h.marks
  cells o ho hne := by
    obtain ⟨hds, hes⟩ := not_or.1 (mt List.mem_append.2 hne)
    exact (h'.cells o (live_mono h.atop ho) hes).trans (h.cells o ho hds)

/-- A command that lets no slot die keeps the cells live before it. -/
theorem keepsScope_of_exec {i : Instr} {s t : State} (h : exec i s = .next t) (hatop : s.atop ≤ t.atop)
    (hmarks : t.marks = s.marks) : KeepsScope (dests i) s t where
  atop := hatop
  marks := hmarks
  cells o ho hne := by
    obtain ⟨hcells, -⟩ := exec_keepsLiveCells i s t h
    exact hcells o hne ho (live_mono hatop ho)

/-- R181: full or not, `AGET` kills no slot. -/
theorem exec_aget_keepsScope {s t : State} (h : exec .aget s = .next t) : KeepsScope (dests .aget) s t := by
  by_cases hcap : s.build.arenaCap = some s.atop
  · cases (exec_aget_of_full hcap).symm.trans h
    exact keepsScope_of_exec h le_rfl rfl
  · cases (exec_aget_of_not_full hcap).symm.trans h
    exact keepsScope_of_exec h (Nat.le_succ _) rfl

theorem exec_keepsScope_of_not_arena {i : Instr} {s t : State} (hi : isArena i = false) (h : exec i s = .next t) :
    KeepsScope (dests i) s t := by
  obtain ⟨hatop, hmarks, -⟩ := onlyArenaCommandsMoveTheArena i s t h hi
  exact keepsScope_of_exec h hatop.ge hmarks

/-- Every run of `l` that ends with no `AFULL` on record keeps its scope. -/
def RunKeepsScope (l : List Instr) : Prop :=
  ∀ s t : State, execAll l s = .next t → t.record.afull = false → KeepsScope (l.flatMap dests) s t

/-- A sequence that keeps its scope, between `AOPEN` and `ACLOSE`, restores `ATOP` as well: the mark that `ACLOSE` pops
is the one that this `AOPEN` pushed. -/
theorem RunKeepsScope.bracket {l : List Instr} (hl : RunKeepsScope l) {s t : State}
    (h : execAll (.aopen :: l ++ [.aclose]) s = .next t) (ht : t.record.afull = false) :
    t.atop = s.atop ∧ KeepsScope (l.flatMap dests) s t := by
  obtain ⟨v, hopen, hrest⟩ := execAll_cons_next h
  obtain ⟨u, hrun, hlast⟩ := execAll_append_next hrest
  have hclose := execAll_singleton_next hlast
  have hu := recordAfull_of_exec hclose ht
  have hv := recordAfull_of_execAll hrun hu
  by_cases hcap : s.build.markCap = some s.marks.length
  · cases (exec_aopen_of_full hcap).symm.trans hopen
    cases hv
  · cases (exec_aopen_of_not_full hcap).symm.trans hopen
    have hbody := hl _ u hrun hu
    obtain ⟨hcells, -⟩ := exec_keepsLiveCells .aclose u t hclose
    cases (exec_aclose_of_marks_cons hbody.marks).symm.trans hclose
    exact ⟨rfl, le_rfl, rfl, fun o ho hne => (hcells o List.not_mem_nil (live_mono hbody.atop ho) ho).trans
      (hbody.cells o ho hne)⟩

/-- R183, by the shape of the sequence. -/
theorem Scoped.runKeepsScope {l : List Instr} (hl : Scoped l) : RunKeepsScope l := by
  induction hl with
  | nil =>
    intro s t h _
    cases h
    exact ⟨le_rfl, rfl, fun _ _ _ => rfl⟩
  | get _ ih =>
    intro s t h ht
    obtain ⟨u, hget, hrest⟩ := execAll_cons_next h
    exact (exec_aget_keepsScope hget).trans (ih u t hrest ht)
  | other hi _ ih =>
    intro s t h ht
    obtain ⟨u, hexec, hrest⟩ := execAll_cons_next h
    exact (exec_keepsScope_of_not_arena hi hexec).trans (ih u t hrest ht)
  | @pair l m _ _ ihl ihm =>
    intro s t h ht
    rw [List.append_cons] at h
    obtain ⟨u, hbracket, hrest⟩ := execAll_append_next h
    obtain ⟨-, hscope⟩ := ihl.bracket hbracket (recordAfull_of_execAll hrest ht)
    have hdests : (.aopen :: l ++ .aclose :: m).flatMap dests = l.flatMap dests ++ m.flatMap dests := by
      simp [dests]
    rw [hdests]
    exact hscope.trans (ihm u t hrest ht)

/-- Settles O48: the sequence keeps its scope, so the commands around it restore the arena. -/
theorem arenaScopeRestores : Obligations.ArenaScopeRestores := by
  intro l s t hl h ht
  obtain ⟨hatop, hscope⟩ := hl.runKeepsScope.bracket h ht
  exact ⟨hatop, hscope.marks, hscope.cells⟩

end Sys2Proof.Machine

/-! SUPPORT and the obligations O49 to O51. What `SOLVE` answers inside and outside its preconditions (R190), the two
commands by that answer, and the residue of the first coefficient (R192). -/

namespace Sys2Proof.Machine

/-- The values `SOLVE` answers for the magnitudes `m` and `n`: the base cases in their order (90 C11), else the bounded
pair. -/
structure SolvePair (m n : Nat) (p : Int × Int) : Prop where
  bezout : p.1 * m + p.2 * n = 1
  first : m = 1 → p = (1, 0)
  second : m ≠ 1 → n = 1 → p = (0, 1)
  bound : m ≠ 1 → n ≠ 1 → 2 * p.1.natAbs ≤ n ∧ 2 * p.2.natAbs ≤ m

/-- The loop as `SOLVE` enters it. -/
theorem euclidLoop_of_magnitudes {m n : Nat} (hn : 2 ≤ n) :
    (Nat.gcd m n = 1 → ∃ s t, euclidLoop n m n 1 0 0 1 = some (s, t) ∧ s * m + t * n = 1 ∧ 2 * s.natAbs ≤ n ∧
      2 * t.natAbs ≤ m) ∧
    (Nat.gcd m n ≠ 1 → euclidLoop n m n 1 0 0 1 = none) := by
  apply euclidLoop_spec m n n m n 1 0 0 1 hn le_rfl <;> simp

theorem solve_of_euclidOperand {b : Build} {x y : Value}
    (h : x.sgn = .neg ∨ y.sgn = .neg ∨ 2 ^ b.H ≤ x.mag ∨ 2 ^ b.H ≤ y.mag) :
    solve b x y = .error .euclidOperand := if_pos h

/-! `SOLVE` on operands that keep P2 and P3. -/

section

variable {b : Build} {x y : Value} (hx : x.sgn = .pos) (hy : y.sgn = .pos) (hxH : x.mag < 2 ^ b.H)
  (hyH : y.mag < 2 ^ b.H)
include hx hy hxH hyH

theorem solve_of_first_eq_one (h1 : x.mag = 1) : solve b x y = .ok (1, 0) := by
  rw [solve, if_neg (by simp [hx, hy, hxH, hyH]), if_pos h1]

theorem solve_of_second_eq_one (h1 : x.mag ≠ 1) (h2 : y.mag = 1) : solve b x y = .ok (0, 1) := by
  rw [solve, if_neg (by simp [hx, hy, hxH, hyH]), if_neg h1, if_pos h2]

theorem solve_of_eq_zero (h1 : x.mag ≠ 1) (h2 : y.mag ≠ 1) (h0 : x.mag = 0 ∨ y.mag = 0) :
    solve b x y = .error .notCoprime := by
  rw [solve, if_neg (by simp [hx, hy, hxH, hyH]), if_neg h1, if_neg h2, if_pos h0]

/-- Past the base cases and zero `SOLVE` is its loop. -/
theorem solve_eq_euclidLoop (h1 : x.mag ≠ 1) (h2 : y.mag ≠ 1) (h0 : ¬ (x.mag = 0 ∨ y.mag = 0)) :
    solve b x y = (euclidLoop y.mag x.mag y.mag 1 0 0 1).elim (.error .notCoprime) .ok := by
  rw [solve, if_neg (by simp [hx, hy, hxH, hyH]), if_neg h1, if_neg h2, if_neg h0]
  cases euclidLoop y.mag x.mag y.mag 1 0 0 1 <;> rfl

theorem solve_of_coprime (hg : Nat.gcd x.mag y.mag = 1) : ∃ p, solve b x y = .ok p ∧ SolvePair x.mag y.mag p := by
  by_cases h1 : x.mag = 1
  · exact ⟨_, solve_of_first_eq_one hx hy hxH hyH h1, by simp [h1], fun _ => rfl, fun h => absurd h1 h,
      fun h => absurd h1 h⟩
  by_cases h2 : y.mag = 1
  · exact ⟨_, solve_of_second_eq_one hx hy hxH hyH h1 h2, by simp [h2], fun h => absurd h h1, fun _ _ => rfl,
      fun _ h => absurd h2 h⟩
  -- gcd(0, n) = n, not 1 here
  have h0 : ¬ (x.mag = 0 ∨ y.mag = 0) := by
    rintro (h0 | h0) <;> simp [h0, h1, h2] at hg
  obtain ⟨s, t, hloop, hbezout, hs, ht⟩ := (euclidLoop_of_magnitudes (by omega)).1 hg
  rw [solve_eq_euclidLoop hx hy hxH hyH h1 h2 h0, hloop]
  exact ⟨_, rfl, hbezout, fun h => absurd h h1, fun _ h => absurd h h2, fun _ _ => ⟨hs, ht⟩⟩

theorem solve_of_not_coprime (hg : Nat.gcd x.mag y.mag ≠ 1) : solve b x y = .error .notCoprime := by
  have h1 : x.mag ≠ 1 := fun h => hg (by rw [h, Nat.gcd_one_left])
  have h2 : y.mag ≠ 1 := fun h => hg (by rw [h, Nat.gcd_one_right])
  by_cases h0 : x.mag = 0 ∨ y.mag = 0
  · exact solve_of_eq_zero hx hy hxH hyH h1 h2 h0
  · rw [solve_eq_euclidLoop hx hy hxH hyH h1 h2 h0, (euclidLoop_of_magnitudes (by omega)).2 hg, Option.elim_none]

end

/-! The two commands by the answer of `SOLVE`. -/

section

variable {s : State} {a b : Operand} (ha : live s a = true) (hb : live s b = true)
include ha hb

theorem exec_xeuc_of_solve {p : Int × Int} (h : solve s.build (cell s a) (cell s b) = .ok p) :
    exec (.xeuc a b) s =
      .next (setCell (setCell (noteRead (noteRead s .whole a) .whole b) a (valueOfInt p.1)) b (valueOfInt p.2)) := by
  simp only [exec, execXeuc, withCell_withCell_of_live ha hb, noteRead_build, h]

theorem exec_invmod_of_solve {p : Int × Int} (h : solve s.build (cell s a) (cell s b) = .ok p) :
    exec (.invmod a b) s =
      if (cell s b).mag = 0 then .fault .zeroModulus
      else .next (setCell (noteRead (noteRead s .whole a) .whole b) a (modV s.build (valueOfInt p.1) (cell s b))) := by
  simp only [exec, execInvmod, withCell_withCell_of_live ha hb, noteRead_build, h]

theorem exec_of_solve_error {f : Fault} (h : solve s.build (cell s a) (cell s b) = .error f) :
    exec (.xeuc a b) s = .fault f ∧ exec (.invmod a b) s = .fault f := by
  simp only [exec, execXeuc, execInvmod, withCell_withCell_of_live ha hb, noteRead_build, h, and_self]

end

/-- Settles O50: both commands pass on the fault of `SOLVE`. -/
theorem euclidStopsOutsidePreconditions : Obligations.EuclidStopsOutsidePreconditions := by
  intro s a b ha hb
  exact ⟨fun h => exec_of_solve_error ha hb (solve_of_euclidOperand h),
    fun hx hy hxH hyH hg => exec_of_solve_error ha hb (solve_of_not_coprime hx hy hxH hyH hg)⟩

@[simp] theorem intVal_valueOfInt (z : Int) : intVal (valueOfInt z) = z := by
  by_cases hz : z < 0
  · simp only [valueOfInt, if_pos hz, intVal]
    omega
  · simp only [valueOfInt, if_neg hz, intVal]
    omega

/-- Settles O49: two different cells take the two parts of the pair `SOLVE` answers. -/
theorem xeucGivesBezoutPair : Obligations.XeucGivesBezoutPair := by
  intro s a b ha hb hab hx hy hxH hyH hg
  obtain ⟨p, hsolve, hp⟩ := solve_of_coprime hx hy hxH hyH hg
  refine ⟨rfl, _, exec_xeuc_of_solve ha hb hsolve,
    (onlyCells_setCell_noteRead_noteRead s a b _).trans (onlyCells_setCell _ b _), ?_⟩
  rw [cell_setCell_ne _ _ hab, cell_setCell_same, cell_setCell_same, intVal_valueOfInt, intVal_valueOfInt]
  refine ⟨hp.bezout, fun h1 => ?_, fun h1 h2 => ?_, hp.bound⟩
  · rw [hp.first h1]
    exact ⟨rfl, rfl⟩
  · rw [hp.second h1 h2]
    exact ⟨rfl, rfl⟩

/-! The residue modulo a positive modulus (R122, R192). -/

section

variable {b : Build} {x m : Value} (hm : m.sgn = .pos) (h0 : m.mag ≠ 0)
include hm h0

theorem sgn_modV : (modV b x m).sgn = .pos := by
  by_cases hr : x.mag % m.mag = 0
  · rw [modV_of_mod_eq_zero hr]
  · cases hx : x.sgn with
    | pos => rw [modV_of_pos hx]
    | neg => rw [modV_of_neg_of_pos hx hm h0 hr]

theorem natCast_mag_modV : ((modV b x m).mag : Int) = intVal x % m.mag := by
  rw [← intVal_modV (b := b) hm h0, intVal, sgn_modV hm h0]

theorem mag_modV_lt : (modV b x m).mag < m.mag := by
  have hlt := Int.emod_lt_of_pos (intVal x) (Int.natCast_pos.2 (Nat.pos_of_ne_zero h0))
  rw [← natCast_mag_modV (b := b) hm h0] at hlt
  exact Int.ofNat_lt.1 hlt

/-- The first Bézout coefficient, reduced, is the inverse. -/
theorem mul_mag_modV_of_bezout {n : Nat} {t : Int} (h : intVal x * n + t * m.mag = 1) :
    n * (modV b x m).mag % m.mag = 1 % m.mag := by
  refine (Int.natCast_modEq_iff.1 ?_ : n * (modV b x m).mag ≡ 1 [MOD m.mag])
  rw [Nat.cast_mul, natCast_mag_modV hm h0]
  calc (n * (intVal x % m.mag) : Int) ≡ n * intVal x [ZMOD m.mag] := (Int.mod_modEq ..).mul_left _
    _ ≡ n * intVal x + t * m.mag [ZMOD m.mag] := (Int.add_mul_emod_self_right ..).symm
    _ = 1 := by rw [mul_comm, h]

end

/-- Settles O51: the cell written is the residue of the first part of the pair `SOLVE` answers. -/
theorem invmodInverts : Obligations.InvmodInverts := by
  intro s a b ha hb hx hy hxH hyH hg
  obtain ⟨p, hsolve, hp⟩ := solve_of_coprime hx hy hxH hyH hg
  rw [exec_invmod_of_solve ha hb hsolve]
  refine ⟨rfl, fun h0 => if_pos h0, fun h0 =>
    ⟨_, if_neg h0, onlyCells_setCell_noteRead_noteRead s a b _, ?_⟩⟩
  rw [cell_setCell_same]
  exact ⟨sgn_modV hy h0, mag_modV_lt hy h0,
    mul_mag_modV_of_bezout hy h0 ((intVal_valueOfInt p.1).symm ▸ hp.bezout)⟩

end Sys2Proof.Machine

/-! SUPPORT and the obligations O52 to O54. The parts of the primality tester said once (the odd part of `n − 1`, a round
as the passing witness of R201, the rounds as the draws they take), and that a prime has no failing witness (R202). -/

namespace Sys2Proof.Machine

/-! The split `n − 1 = d·2^e` (R200). -/

theorem trailingZeros_odd_mul_two_pow {d e fuel : Nat} (hd : d % 2 = 1) (he : e ≤ fuel) :
    trailingZeros fuel (d * 2 ^ e) = e := by
  induction e generalizing fuel with
  | zero => cases fuel <;> simp [trailingZeros, hd]
  | succ e ih =>
    obtain ⟨k, rfl⟩ : ∃ k, fuel = k + 1 := Nat.exists_eq_add_of_le' (Nat.le_of_add_left_le he)
    rw [trailingZeros, pow_succ, ← Nat.mul_assoc, if_pos (Nat.mul_mod_left ..), Nat.mul_div_cancel _ Nat.two_pos,
      ih (Nat.le_of_succ_le_succ he)]

theorem isPrimeV_one (b : Build) (acc : Nat) (g : Rng) : isPrimeV b 1 acc g = (false, g) := if_pos rfl

/-- The split is unique, so the rounds run on the given one. -/
theorem isPrimeV_eq_primeRounds {b : Build} {n d e : Nat} (hn : n ≠ 1) (hd : d % 2 = 1) (hsplit : n - 1 = d * 2 ^ e)
    (acc : Nat) (g : Rng) : isPrimeV b n acc g = primeRounds b n e d acc g := by
  have hfuel : e ≤ d * 2 ^ e := Nat.lt_two_pow_self.le.trans (Nat.le_mul_of_pos_left _ (by omega))
  simp only [isPrimeV, if_neg hn, hsplit, trailingZeros_odd_mul_two_pow hd hfuel,
    Nat.mul_div_cancel _ (Nat.two_pow_pos e)]

/-! One round (R200, R201). -/

/-- After `j` squarings the residue of `x` is that of `x ^ 2 ^ j`. -/
theorem landsOn_iff {n k x : Nat} : landsOn n k (x % n) = true ↔ ∃ j ≤ k, x ^ 2 ^ j % n = n - 1 := by
  induction k generalizing x with
  | zero => simp [landsOn]
  | succ k ih =>
    have hsq (j : Nat) : x ^ 2 ^ (j + 1) = (x ^ 2) ^ 2 ^ j := by rw [← pow_mul, ← pow_succ']
    rw [landsOn, ← Nat.mul_mod, ← sq]
    simp only [← Nat.lt_succ_iff, Nat.exists_lt_succ_left (n := k + 1), hsq, pow_zero, pow_one]
    simp only [Nat.lt_succ_iff, ← ih]
    by_cases h : x % n = n - 1 <;> simp [h]

theorem roundPasses_iff {b : Build} {n d : Nat} (hd0 : d ≠ 0) (hd : d < 2 ^ b.W) (e w : Nat) :
    roundPasses b n e d w = true ↔ Passing n e d w := by
  simp only [roundPasses, powModV_eq hd, if_neg hd0, ← Nat.pow_mod, Bool.or_eq_true, decide_eq_true_eq, landsOn_iff,
    ← pow_mul, Passing]

/-! The rounds as the draws they take. -/

section

variable {b : Build} {n e d : Nat}

theorem primeRounds_fst_iff {acc : Nat} {g : Rng} : (primeRounds b n e d acc g).1 = true ↔
    ∀ w ∈ drawList 1 (n - 1) acc g, roundPasses b n e d w = true := by
  induction acc generalizing g with
  | zero => simp [primeRounds, drawList]
  | succ acc ih =>
    rw [primeRounds, drawList, List.forall_mem_cons, ← ih]
    split <;> simp [*]

/-- Passing rounds go by, one draw each. -/
theorem primeRounds_add_of_pass {k : Nat} (m : Nat) {g : Rng}
    (hpass : ∀ w ∈ drawList 1 (n - 1) k g, roundPasses b n e d w = true) :
    primeRounds b n e d (k + m) g = primeRounds b n e d m (rngAfter 1 (n - 1) k g) := by
  induction k generalizing g with
  | zero => rw [Nat.zero_add, rngAfter]
  | succ k ih =>
    obtain ⟨hfirst, hrest⟩ := List.forall_mem_cons.1 hpass
    rw [Nat.add_right_comm, primeRounds, if_pos hfirst, ih hrest, rngAfter]

theorem primeRounds_snd_of_pass {acc : Nat} {g : Rng}
    (hpass : ∀ w ∈ drawList 1 (n - 1) acc g, roundPasses b n e d w = true) :
    (primeRounds b n e d acc g).2 = rngAfter 1 (n - 1) acc g :=
  congrArg Prod.snd (primeRounds_add_of_pass 0 hpass)

theorem rngAfter_succ (lo hi k : Nat) (g : Rng) :
    rngAfter lo hi (k + 1) g = ((rngAfter lo hi k g).draw lo hi).2 := by
  induction k generalizing g with
  | zero => rfl
  | succ k ih => exact ih _

/-- The first failing witness is the last draw. -/
theorem primeRounds_snd_of_fail {k acc : Nat} (hk : k < acc) {g : Rng}
    (hpass : ∀ w ∈ drawList 1 (n - 1) k g, roundPasses b n e d w = true)
    (hfail : ¬ roundPasses b n e d ((rngAfter 1 (n - 1) k g).draw 1 (n - 1)).1 = true) :
    (primeRounds b n e d acc g).2 = rngAfter 1 (n - 1) (k + 1) g := by
  obtain ⟨m, rfl⟩ : ∃ m, acc = k + (m + 1) := Nat.exists_eq_add_of_lt hk
  rw [primeRounds_add_of_pass _ hpass, primeRounds, if_neg hfail, rngAfter_succ]

end

theorem mem_drawList {lo hi k w : Nat} {g : Rng} (hle : lo ≤ hi) (hw : w ∈ drawList lo hi k g) : lo ≤ w ∧ w ≤ hi := by
  induction k generalizing g with
  | zero => cases hw
  | succ k ih =>
    rcases List.mem_cons.1 hw with rfl | hw
    · exact draw_mem g hle
    · exact ih hw

/-! The command. -/

theorem exec_isprime {s : State} {a : Operand} (acc : Imm16) (ha : live s a = true) : exec (.isprime a acc) s =
    if (cell s a).sgn = .neg ∨ (cell s a).mag = 0 ∨ 2 ^ s.build.H < (cell s a).mag then .fault .primeOperand
    else .next (setT (isPrimeV s.build (cell s a).mag acc.toNat s.rng).1
      { noteRead s .whole a with rng := (isPrimeV s.build (cell s a).mag acc.toNat s.rng).2 }) := by
  rw [exec, execIsprime, withCell_of_live ha]
  rfl

/-- Settles O54: U7 is the guard between the read and the rounds. -/
theorem isprimeStopsOutsidePreconditions : Obligations.IsprimeStopsOutsidePreconditions := by
  intro s a acc ha hbad
  rw [exec_isprime acc ha, if_pos hbad]

/-- Settles O52: past the guard of U7 the verdict and the source are those of the rounds, each of which passes exactly
on the passing witnesses of R201. -/
theorem isprimeVerdictOfDraws : Obligations.IsprimeVerdictOfDraws := by
  intro s a acc ha hsgn hpos hH
  have hguard : ¬ ((cell s a).sgn = .neg ∨ (cell s a).mag = 0 ∨ 2 ^ s.build.H < (cell s a).mag) := by
    rintro (h | h | h)
    · cases hsgn.symm.trans h
    · omega
    · omega
  rw [exec_isprime acc ha, if_neg hguard]
  refine ⟨rfl, _, rfl, (frame_noteRead s .whole a).trans ((frame_rng ..).trans (frame_setT ..)), rfl, fun _ _ => rfl,
    fun h1 => ?_, fun h1 d e hd hsplit => ?_⟩
  · rw [h1, isPrimeV_one]
    exact ⟨rfl, rfl⟩
  · have hle : d ≤ (cell s a).mag - 1 := hsplit ▸ Nat.le_mul_of_pos_right d (Nat.two_pow_pos e)
    have hdW : d < 2 ^ s.build.W := by have := two_pow_half_le s.build; omega
    rw [isPrimeV_eq_primeRounds h1 hd hsplit]
    simp only [← roundPasses_iff (by omega : d ≠ 0) hdW]
    refine ⟨primeRounds_fst_iff, fun k _ hpass => ⟨?_, fun hlt hfail => primeRounds_snd_of_fail hlt hpass hfail⟩⟩
    rintro rfl
    exact primeRounds_snd_of_pass hpass

/-! A prime has no failing witness (R202). -/

/-- 1 has the square roots 1 and −1 only, so squarings that end in 1 start in 1 or pass −1. -/
theorem eq_one_or_pow_two_pow_eq_neg_one {R : Type*} [Ring R] [NoZeroDivisors R] {x : R} {e : Nat}
    (h : x ^ 2 ^ e = 1) : x = 1 ∨ ∃ j < e, x ^ 2 ^ j = -1 := by
  induction e with
  | zero => exact .inl (by simpa only [pow_zero, pow_one] using h)
  | succ e ih =>
    rw [pow_succ, pow_mul, sq_eq_one_iff] at h
    rcases h with hone | hneg
    · exact (ih hone).imp_right fun ⟨j, hj, hj1⟩ => ⟨j, hj.trans (Nat.lt_succ_self e), hj1⟩
    · exact .inr ⟨e, Nat.lt_succ_self e, hneg⟩

theorem natCast_eq_one_iff_mod {n : Nat} (hn : 1 < n) (x : Nat) : (x : ZMod n) = 1 ↔ x % n = 1 := by
  rw [← Nat.cast_one, ZMod.natCast_eq_natCast_iff', Nat.mod_eq_of_lt hn]

theorem natCast_eq_neg_one_iff_mod {n : Nat} (hn : 1 < n) (x : Nat) : (x : ZMod n) = -1 ↔ x % n = n - 1 := by
  have hneg : ((n - 1 : Nat) : ZMod n) = -1 := by
    rw [Nat.cast_pred (Nat.zero_lt_of_lt hn), ZMod.natCast_self, zero_sub]
  rw [← hneg, ZMod.natCast_eq_natCast_iff', Nat.mod_eq_of_lt (Nat.sub_one_lt_of_lt hn)]

/-- Fermat's little theorem ends the squarings of a round in 1. -/
theorem passing_of_prime {p d e w : Nat} (hp : p.Prime) (hsplit : p - 1 = d * 2 ^ e) (h1 : 1 ≤ w) (hw : w ≤ p - 1) :
    Passing p e d w := by
  have := Fact.mk hp
  have hw0 : (w : ZMod p) ≠ 0 := by
    rw [Ne, ZMod.natCast_eq_zero_iff]
    exact Nat.not_dvd_of_pos_of_lt h1 (by omega)
  have hfermat : ((w : ZMod p) ^ d) ^ 2 ^ e = 1 := by
    rw [← pow_mul, ← hsplit, ZMod.pow_card_sub_one_eq_one hw0]
  rcases eq_one_or_pow_two_pow_eq_neg_one hfermat with hone | ⟨j, hj, hneg⟩
  · exact .inl ((natCast_eq_one_iff_mod hp.one_lt _).1 (by rw [Nat.cast_pow, hone]))
  · refine .inr ⟨j, Nat.le_sub_one_of_lt hj, (natCast_eq_neg_one_iff_mod hp.one_lt _).1 ?_⟩
    rw [Nat.cast_pow, pow_mul, hneg]

/-- Settles O53: every draw is between 1 and `n − 1`, so on a prime every witness drawn is a passing one. -/
theorem isprimeNeverRejectsPrimes : Obligations.IsprimeNeverRejectsPrimes := by
  intro s a acc ha hsgn hH hp
  have hone := hp.one_lt
  obtain ⟨-, t, hexec, -, -, -, -, hverdict⟩ := isprimeVerdictOfDraws s a acc ha hsgn hone.le hH
  obtain ⟨e, d, hodd, hsplit⟩ := Nat.exists_eq_two_pow_mul_odd (Nat.sub_ne_zero_of_lt hone)
  rw [Nat.mul_comm] at hsplit
  obtain ⟨ht, -⟩ := hverdict hone.ne' d e (Nat.odd_iff.1 hodd) hsplit
  refine ⟨t, hexec, ht.2 fun w hw => ?_⟩
  obtain ⟨h1, hle⟩ := mem_drawList (Nat.le_sub_one_of_lt hone) hw
  exact passing_of_prime hp hsplit h1 hle

end Sys2Proof.Machine

/-! SUPPORT and the obligations O22 to O24 and O28. The transfers that write a whole cell (R44, R160 to R162), and the
read of a sign (R166). -/

namespace Sys2Proof.Machine

@[simp] theorem noteWhole_written_g (s : State) (r : Fin 16) : (noteWhole s (.g r)).written =
    s.written.set r ⟨true, List.replicate s.build.N true⟩ := rfl

/-- From `s` to `t` the cell `a` took the whole value `v`, and nothing else changed but the model's record of reads. -/
def WritesWhole (a : Operand) (v : Value) (s t : State) : Prop :=
  cell t a = v ∧ wasWritten t .whole a = true ∧ Frame [a] s t ∧ KeepsT s t ∧ KeepsDout s t ∧ KeepsRng s t ∧
    KeepsWritten [a] s t

theorem keepsWritten_noteWhole (s : State) (o : Operand) : KeepsWritten [o] s (noteWhole s o) := by
  cases o with
  | g r => exact keepsWritten_of_set (noteWhole_written_g ..)
  | s k => exact fun _ _ => rfl

/-- Writing a cell after reads. -/
theorem writesWhole_noteWhole_setCell {s u : State} (h : OnlyCells [] s u) (a : Operand) (v : Value) :
    WritesWhole a v s (noteWhole (setCell u a v) a) := by
  have hcells : OnlyCells [a] s (setCell u a v) := h.trans (onlyCells_setCell u a v)
  refine ⟨?_, wasWritten_noteWhole _ a, hcells.frame.trans (frame_noteWhole _ a), ?_, ?_, ?_, fun r hr => ?_⟩
  · rw [cell_noteWhole, cell_setCell_same]
  · rw [KeepsT, noteWhole_status, hcells.keepsT]
  · rw [KeepsDout, noteWhole_dout, hcells.dout]
  · rw [KeepsRng, noteWhole_rng, hcells.rng]
  · rw [keepsWritten_noteWhole _ a r hr, hcells.written r List.not_mem_nil]

theorem onlyCells_refl (s : State) : OnlyCells [] s s := ⟨.refl [] s, rfl, rfl, rfl, fun _ _ => rfl⟩

theorem exec_ldo {s : State} {a : Operand} (ha : live s a = true) :
    exec (.ldo a) s = .next (noteWhole (setCell s a .one) a) :=
  withLive_of_live ha _

theorem exec_mov {s : State} {a b : Operand} (ha : live s a = true) (hb : live s b = true) : exec (.mov a b) s =
    .next (noteWhole (setCell (noteRead s .whole b) a (cell s b)) a) := by
  simp only [exec, execMov, withLive_of_live ha, withCell_of_live hb]

/-- Settles O22. -/
theorem ldzLoadsZero : Obligations.LdzLoadsZero :=
  fun s a ha => ⟨rfl, _, exec_ldz ha, writesWhole_noteWhole_setCell (onlyCells_refl s) a .zero⟩

/-- Settles O23. -/
theorem ldoLoadsOne : Obligations.LdoLoadsOne :=
  fun s a ha => ⟨rfl, _, exec_ldo ha, writesWhole_noteWhole_setCell (onlyCells_refl s) a .one⟩

/-- Settles O24: the value written is the one read before the write, so `a = b` needs no case of its own. -/
theorem movCopiesCell : Obligations.MovCopiesCell :=
  fun s a b ha hb => ⟨rfl, _, exec_mov ha hb, writesWhole_noteWhole_setCell (onlyCells_noteRead s .whole b) a (cell s b)⟩

/-- Settles O28: `T` is the sign read, whatever the magnitude. -/
theorem getsgnReadsSign : Obligations.GetsgnReadsSign :=
  fun s a ha => ⟨rfl, _, exec_getsgn ha, decide_eq_true_iff, (onlyCells_noteRead s .sign a).onlyT_setT _⟩

end Sys2Proof.Machine

/-! SUPPORT and the obligations O55 and O16. What `CLRST` clears (R210), and which faults a command can stop on
(R225). -/

namespace Sys2Proof.Machine

theorem exec_clrst (s : State) : exec .clrst s = .next (clearSticky s) := rfl

/-- Settles O55: `clearSticky` rewrites `STATUS` only, and in it all but `T`. -/
theorem clrstClearsStickyFlags : Obligations.ClrstClearsStickyFlags :=
  fun s => ⟨rfl, exec_clrst s⟩

theorem eq_pos_of_ne_neg {p : Sign} (h : p ≠ .neg) : p = .pos := by
  cases p with
  | pos => rfl
  | neg => exact absurd rfl h

/-- `SOLVE` answers U5 outside P2 and P3, else U2 on operands that are not coprime, and no other fault (R190). -/
theorem solve_error_meets {P : Fault → Prop} {b : Build} {x y : Value}
    (hU5 : x.sgn = .neg ∨ y.sgn = .neg ∨ 2 ^ b.H ≤ x.mag ∨ 2 ^ b.H ≤ y.mag → P .euclidOperand)
    (hU2 : Nat.gcd x.mag y.mag ≠ 1 → P .notCoprime) (f : Fault) (h : solve b x y = .error f) : P f := by
  by_cases hbad : x.sgn = .neg ∨ y.sgn = .neg ∨ 2 ^ b.H ≤ x.mag ∨ 2 ^ b.H ≤ y.mag
  · cases (solve_of_euclidOperand hbad).symm.trans h
    exact hU5 hbad
  · simp only [not_or, not_le] at hbad
    obtain ⟨hx, hy, hxH, hyH⟩ := hbad
    by_cases hg : Nat.gcd x.mag y.mag = 1
    · obtain ⟨p, hp, -⟩ := solve_of_coprime (eq_pos_of_ne_neg hx) (eq_pos_of_ne_neg hy) hxH hyH hg
      cases hp.symm.trans h
    · cases (solve_of_not_coprime (eq_pos_of_ne_neg hx) (eq_pos_of_ne_neg hy) hxH hyH hg).symm.trans h
      exact hU2 hg

/-- If the operands `l` are live, every fault of the outcome meets `P`. -/
def FaultsMeet (s : State) (l : List Operand) (P : Fault → Prop) (out : Out) : Prop :=
  (∀ o ∈ l, live s o = true) → ∀ f, out = .fault f → P f

namespace FaultsMeet

variable {P : Fault → Prop} {s : State} {l : List Operand} {a b : Operand}

theorem next {t : State} : FaultsMeet s l P (.next t) := fun _ _ => nofun

theorem fault {f : Fault} (hf : P f) : FaultsMeet s l P (.fault f) := by
  intro _ g hg
  cases hg
  exact hf

/-- A live operand does not stop the command. -/
theorem withLive {out : Out} (h : FaultsMeet s l P out) : FaultsMeet s (a :: l) P (withLive s a out) := by
  intro hlive
  rw [withLive_of_live (hlive a List.mem_cons_self)]
  exact h fun o ho => hlive o (List.mem_cons_of_mem a ho)

/-- Recording the read makes no operand dead. -/
theorem withCell {p : Part} {k : Value → State → Out}
    (h : FaultsMeet (noteRead s p a) l P (k (cell s a) (noteRead s p a))) :
    FaultsMeet s (a :: l) P (withCell s p a k) :=
  withLive fun hlive => h fun o ho => (congrFun (live_noteRead s p a) o).trans (hlive o ho)

/-- A precondition adds its own fault. -/
theorem guard {c : Prop} [Decidable c] {f : Fault} {x : Out} (hf : c → P f) (hx : FaultsMeet s l P x) :
    FaultsMeet s l P (if c then .fault f else x) := by
  split
  · exact fault (hf ‹c›)
  · exact hx

/-- `XEUC` adds the faults of `SOLVE` (R190). -/
theorem execXeuc (hf : ∀ f, solve s.build (cell s a) (cell s b) = .error f → P f) :
    FaultsMeet s [a, b] P (execXeuc a b s) := by
  refine withCell (withCell ?_)
  simp only [cell_noteRead, noteRead_build]
  cases hsolve : solve s.build (cell s a) (cell s b) with
  | ok p => exact next
  | error f => exact fault (hf f hsolve)

/-- `INVMOD` adds the faults of `SOLVE` and U3 (R192). -/
theorem execInvmod (hf : ∀ f, solve s.build (cell s a) (cell s b) = .error f → P f)
    (h0 : (cell s b).mag = 0 → P .zeroModulus) : FaultsMeet s [a, b] P (execInvmod a b s) := by
  refine withCell (withCell ?_)
  simp only [cell_noteRead, noteRead_build]
  cases hsolve : solve s.build (cell s a) (cell s b) with
  | ok p => exact guard h0 next
  | error f => exact fault (hf f hsolve)

/-- The faults of a command: of a dead slot it names, which stops it before anything else (O15), and, with every operand
live, of its own preconditions. -/
theorem of_exec {i : Instr} (hdead : ∀ k : Fin 128, Operand.s k ∈ named i → s.atop ≤ k.val → P (.deadSlot k.val))
    (h : FaultsMeet s (named i) P (exec i s)) (f : Fault) (hf : exec i s = .fault f) : P f := by
  by_cases hstop : ∃ o ∈ named i, live s o = false
  · obtain ⟨k, hk, hatop, hexec⟩ := deadSlotStopsEveryCommand i s hstop
    cases hexec.symm.trans hf
    exact hdead k hk hatop
  · exact h (by simpa using hstop) f hf

end FaultsMeet

/-- Settles O16: between its reads and its writes a command has only the preconditions of its own rows of the table. -/
theorem faultsAreListedViolations : Obligations.FaultsAreListedViolations := by
  intro i s
  refine FaultsMeet.of_exec (fun k hk hatop => ⟨k, rfl, hk, hatop⟩) ?_
  unfold named exec
  cases i with
  | ldz | ldo | wrb | setsgn => exact .withLive .next
  | mov => exact .withLive (.withCell .next)
  | rdb | getsgn | shl | shr | getbit | setbit | randomize => exact .withCell .next
  | add | sub | mul | absgt | absge => exact .withCell (.withCell .next)
  | abssub a b => exact .withCell (.withCell (.guard (fun h => ⟨a, b, rfl, h⟩) .next))
  | mod a b => exact .withCell (.withCell (.guard (fun h => .inl ⟨a, b, .inl rfl, h⟩) .next))
  | div a b => exact .withCell (.withCell (.guard (fun h => .inl ⟨a, b, .inr (.inl rfl), h⟩) .next))
  | powmod a b c =>
    exact .withCell (.withCell (.withCell (.guard (fun h => .inr ⟨a, b, c, rfl, h⟩)
      (.guard (fun h => ⟨a, b, c, rfl, h⟩) .next))))
  | xeuc a b => exact .execXeuc (solve_error_meets (fun h => ⟨a, b, .inl rfl, h⟩) fun h => ⟨a, b, .inl rfl, h⟩)
  | invmod a b =>
    exact .execInvmod (solve_error_meets (fun h => ⟨a, b, .inr rfl, h⟩) fun h => ⟨a, b, .inr rfl, h⟩)
      fun h => .inl ⟨a, b, .inr (.inr rfl), h⟩
  | isprime a acc => exact .withCell (.guard (fun h => ⟨a, acc, rfl, h⟩) .next)
  | aopen | aget | aclose | clrst => exact .next

end Sys2Proof.Machine
